-- ==== Sys2Proof/Word.lean ====
section
/-! DEFINITION. The word types of TOY8: bytes (registers, memory cells) and 16-bit program-counter values
(spec/00_scope.md R7; spec/10_state.md R15). -/

namespace Sys2Proof

/-- An 8-bit unsigned value: a register, a memory cell, an opcode byte, an operand byte (R7 `REG_WIDTH`, `CELL_WIDTH`). -/
abbrev Byte := BitVec 8

/-- A 16-bit unsigned value: the program counter and the operand of JMP (R7 `PC_WIDTH`, R62). -/
abbrev Addr := BitVec 16

end Sys2Proof
end

