-- ==== Sys2Proof/Config.lean ====
section
/-! DEFINITION. What the step takes as a parameter (spec/10_state.md R16, spec/00_scope.md R8): the opcode map and the
cycle limit, as the record `Config`; and the parameters the spec leaves OPEN (decisions D6, D11, D12 of
spec/92_eei_decisions.md), as constants with no body, so that no proof can see their values.
The default binding of the record's fields is in Decode.lean (`defaultOpcodeMap`) and Machine/Engine.lean
(`defaultConfig`). -/

namespace Sys2Proof

/-- `OPCODE_MAP`: the opcode byte of each of the ten mnemonics (R64). Its constraints are `OpcodeMap.wf` of
WellFormed.lean. -/
structure OpcodeMap where
  hlt : Byte
  lai : Byte
  lbi : Byte
  lci : Byte
  lab : Byte
  lba : Byte
  adb : Byte
  lam : Byte
  lma : Byte
  jmp : Byte
  deriving DecidableEq, Repr

/-- The ten assigned bytes, in the order of the R65 table. -/
def OpcodeMap.bytes (m : OpcodeMap) : List Byte :=
  [m.hlt, m.lai, m.lbi, m.lci, m.lab, m.lba, m.adb, m.lam, m.lma, m.jmp]

/-- The parameters of the step relation (R16): `OPCODE_MAP` and `CYCLE_LIMIT`. A negative limit is not admitted (D4):
the limit is a natural number. -/
structure Config where
  opcodes : OpcodeMap
  cycleLimit : Nat
  deriving DecidableEq, Repr

/-- `STACK_SIZE`, OPEN (R36, D6). Log 4. -/
opaque Config.stackSize : Nat

/-- `SP_WIDTH`, OPEN (R36, D6). Log 4. -/
opaque Config.spWidth : Nat

/-- Which of its two readings `PRINTABLE_MIN` has (D11, C5), OPEN: true for 32, false for 33. Log 13. -/
opaque Config.spacePrintable : Bool

/-- `PRINTABLE_MIN`, 32 or 33 (R129, D11). -/
def Config.printableMin : Nat := if Config.spacePrintable then 32 else 33

/-- `STATUS_TEXT`, OPEN (D12): the assembler's success status, "reporting the total byte count" (R79). Log 13. -/
opaque Config.statusText : Nat → List Char

/-- `WARNING_TEXT`, OPEN (D12): the "max cycle limit" warning appended to the status (R93). Log 13. -/
opaque Config.warningText : List Char

/-- `SEPARATOR`, OPEN (D12): the first separator of the report, between status and window (R128). Log 13. -/
opaque Config.separatorAfterStatus : List Char

/-- `SEPARATOR`, OPEN (D12): the second separator of the report, between window and final line (R128). The source does
not say that the two are the same text. Log 13. -/
opaque Config.separatorAfterWindow : List Char

/-- `PLACEHOLDER_GLYPH`, OPEN (D12): the "single reserved substitute character" (R129). Log 13. -/
opaque Config.placeholderGlyph : Char

/-- `FINAL_LINE_FORMAT`, OPEN (D12): how the final line shows A, B, C and the four flag digits, which reach it already
written as single digits in Carry-Zero-Sign-Parity order (R130). Log 13. -/
opaque Config.finalLineFormat : Byte → Byte → Byte → List Char → List Char

end Sys2Proof
end

