-- ==== Sys2Proof/Machine/State.lean ====
section
/-! DEFINITION. The machine state as plain data (spec/10_state.md R15, R38), what a stop could be, and the state after
reset (R35; spec/70_reset_and_hazards.md R122). -/

namespace Sys2Proof.Machine

/-- The register file: seven named 8-bit registers (R17). A is the accumulator. -/
structure Regs where
  a : Byte
  b : Byte
  c : Byte
  d : Byte
  e : Byte
  h : Byte
  l : Byte
  deriving DecidableEq, Repr

/-- The four one-bit flags Carry, Zero, Sign, Parity (R27). -/
structure Flags where
  cf : Bool
  zf : Bool
  sf : Bool
  pf : Bool
  deriving DecidableEq, Repr

/-- Bytes by address as a list of pairs in one canonical form: addresses strictly rising, no entry equal to what an
unlisted address reads as (`Cells.wf` of Ops.lean). -/
abbrev Cells := List Host.Cell

/-- The complete state of R15, and the engine's status suffix (`limitWarning`). -/
structure State where
  /-- A, B, C, D, E, H, L (R17). -/
  regs : Regs
  /-- CF, ZF, SF, PF (R27). -/
  flags : Flags
  /-- The program counter, 16 bits (R23). -/
  pc : Addr
  /-- The 16384 memory cells (R33). -/
  mem : Cells
  /-- The halted flag (R31). -/
  halted : Bool
  /-- Whether the "max cycle limit" warning has been appended to the status (R93, R94). Log 5. -/
  limitWarning : Bool
  /-- The stack pointer, unused; its width is OPEN (R36, D6), so it is a number below `2 ^ Config.spWidth`. Log 4. -/
  sp : Nat
  /-- The stack storage, unused; its size is OPEN (R36, D6), so every listed index is below `Config.stackSize`. Log 4. -/
  stack : Cells
  /-- The iterations executed so far, a natural number with no width (R32, D14). Log 14. -/
  cycles : Nat
  deriving DecidableEq, Repr

/-- The faults of the machine: none. "No byte, operand or address gives a fault, a stuck state or a refusal" (R96; R109).
No constructor, so nobody raises one (safe: nothing stops). -/
inductive Fault where
  deriving DecidableEq, Repr

/-- The refusals of the model. -/
inductive Refusal where
  /-- An instruction with no meaning yet, raised by its arm of `exec` alone. Every instruction has its meaning, so nobody
  raises it. Safe: the model stops where the machine goes on. -/
  | notModelled (mnemonic : String)
  deriving DecidableEq, Repr

/-- R35, R122: everything zero, but for the flags' defaults Zero = 1 and Parity = 1 (R30, C3). SP and stack zero are the
spec's choice D6 (log 4), `limitWarning` false is the model's (log 5). -/
def State.reset : State where
  regs := ⟨0#8, 0#8, 0#8, 0#8, 0#8, 0#8, 0#8⟩
  flags := ⟨false, true, false, true⟩
  pc := 0#16
  mem := []
  halted := false
  limitWarning := false
  sp := 0
  stack := []
  cycles := 0

end Sys2Proof.Machine
end

