-- ==== Sys2Proof/Machine/Flags.lean ====
section
/-! DEFINITION. The flag computations (spec/44_arithmetic.md R103, R104). -/

namespace Sys2Proof.Machine

/-- `popcount(v)`: the number of 1 bits of a byte (R9). -/
def popcount (v : Byte) : Nat := (List.range 8).countP (fun k => v.getLsbD k)

/-- Zero = (value == 0) (R103). -/
def zeroFlag (v : Byte) : Bool := decide (v.toNat = 0)

/-- Sign = (value >= 128) (R103). -/
def signFlag (v : Byte) : Bool := decide (128 ≤ v.toNat)

/-- Parity is 1 when the number of set bits is even (R103). -/
def parityFlag (v : Byte) : Bool := decide (popcount v % 2 = 0)

/-- The unreduced sum of ADB (R104). -/
def adbSum (x y : Byte) : Nat := x.toNat + y.toNat

/-- Carry = (result > 255), of the unreduced sum (R104). -/
def carryFlag (r : Nat) : Bool := decide (255 < r)

/-- The four flags after a result: the carry of the unreduced sum, and the flag function of the reduced value (R103,
R104). -/
def flagsOf (r : Nat) (v : Byte) : Flags := ⟨carryFlag r, zeroFlag v, signFlag v, parityFlag v⟩

end Sys2Proof.Machine
end

