-- ==== Sys2Proof/Machine/Ops.lean ====
section
/-! DEFINITION. The named operations over memory, registers and the program counter (spec/00_scope.md R10, R11), and the
two ends of a run. The machine takes no exception (spec/60_exceptions.md R109, R113), so no exception entry or return
stands here: what stops it is `State.halt` and `State.exhaust`. -/

namespace Sys2Proof.Machine

/-- `MEM_SIZE` (R7). -/
def memSize : Nat := 16384

/-- `wrapA(n) = n mod MEM_SIZE` (R11, R42). -/
def wrapA (n : Nat) : Nat := n % memSize

/-- What an unlisted address reads as: the value of every cell at reset (R35, R122). -/
def unlistedByte : Byte := 0#8

/-- The value at a key. -/
def Cells.get (k : Nat) : Cells → Byte
  | [] => unlistedByte
  | (j, v) :: rest => if j = k then v else Cells.get k rest

/-- The cells without any entry at a key. -/
def Cells.erase (k : Nat) : Cells → Cells
  | [] => []
  | (j, v) :: rest => if j = k then Cells.erase k rest else (j, v) :: Cells.erase k rest

/-- An entry put at its place among rising keys, where its key has none. -/
def Cells.insert (k : Nat) (v : Byte) : Cells → Cells
  | [] => [(k, v)]
  | (j, w) :: rest => if k < j then (k, v) :: (j, w) :: rest else (j, w) :: Cells.insert k v rest

/-- The cells with one key's value replaced; the canonical form lists no `unlistedByte`. -/
def Cells.set (k : Nat) (v : Byte) (cells : Cells) : Cells :=
  if v = unlistedByte then Cells.erase k cells else Cells.insert k v (Cells.erase k cells)

/-- The canonical form with keys from `low` up and below `bound`: keys strictly rising, no entry equal to
`unlistedByte`. -/
def Cells.wfFrom (bound low : Nat) : Cells → Bool
  | [] => true
  | (k, v) :: rest => decide (low ≤ k) && decide (k < bound) && decide (v ≠ unlistedByte) && Cells.wfFrom bound (k + 1) rest

/-- The canonical form of a memory: addresses 0 to 16383 (R33). -/
def Memory.wf (mem : Cells) : Bool := Cells.wfFrom memSize 0 mem

/-- `MemRead(addr, 1) = mem[wrapA(addr)]` (R11). No address faults and no read changes state (R42, R48). -/
def Memory.read (mem : Cells) (addr : Nat) : Byte := Cells.get (wrapA addr) mem

/-- `MemWrite(addr, 1, v)`: `mem[wrapA(addr)] <- v` (R11). The value is a byte by its type; `wrap8` of a wider value is
at the image load (Load.lean). -/
def Memory.write (mem : Cells) (addr : Nat) (v : Byte) : Cells := Cells.set (wrapA addr) v mem

/-- The names of the registers (R10). -/
inductive Reg where
  | a | b | c | d | e | h | l
  deriving DecidableEq, Repr

/-- `x[r]` (R10). There is no hardwired register (R17). -/
def State.reg (s : State) : Reg → Byte
  | .a => s.regs.a
  | .b => s.regs.b
  | .c => s.regs.c
  | .d => s.regs.d
  | .e => s.regs.e
  | .h => s.regs.h
  | .l => s.regs.l

/-- `x[r] <- v` (R10). -/
def State.setReg (s : State) (r : Reg) (v : Byte) : State :=
  match r with
  | .a => { s with regs := { s.regs with a := v } }
  | .b => { s with regs := { s.regs with b := v } }
  | .c => { s with regs := { s.regs with c := v } }
  | .d => { s with regs := { s.regs with d := v } }
  | .e => { s with regs := { s.regs with e := v } }
  | .h => { s with regs := { s.regs with h := v } }
  | .l => { s with regs := { s.regs with l := v } }

/-- All four flags written at once, as the one instruction that writes flags does (R28). -/
def State.setFlags (s : State) (f : Flags) : State := { s with flags := f }

/-- `pc <- target` (R10). -/
def State.setPc (s : State) (target : Addr) : State := { s with pc := target }

/-- The byte of memory at an address, reduced. -/
def State.memRead (s : State) (addr : Nat) : Byte := Memory.read s.mem addr

/-- One byte of memory replaced. -/
def State.memWrite (s : State) (addr : Nat) (v : Byte) : State := { s with mem := Memory.write s.mem addr v }

/-- `(pc + 1) mod 16384` (R24). -/
def pcSucc (pc : Addr) : Addr := BitVec.ofNat 16 (wrapA (pc.toNat + 1))

/-- `fetch8()`: the byte at the program counter, and the state with the program counter one further (R11). -/
def fetch8 (s : State) : Byte × State := (s.memRead s.pc.toNat, s.setPc (pcSucc s.pc))

/-- `cycles <- cycles + 1` (R89). -/
def State.countCycle (s : State) : State := { s with cycles := s.cycles + 1 }

/-- `halted <- true`, the end of a run by HLT (R97). -/
def State.halt (s : State) : State := { s with halted := true }

/-- The end of a run by cycle exhaustion: `halted` is forced and the warning appended; everything else stays (R93). -/
def State.exhaust (s : State) : State := { s with halted := true, limitWarning := true }

/-- Why a run has ended (R94, R126). -/
inductive HaltReason where
  | hlt
  | cycleLimit
  deriving DecidableEq, Repr

/-- The halt reason of a state (R94): the warning stands exactly where rule R93 set `halted`. Log 5. -/
def State.haltReason (s : State) : Option HaltReason :=
  if s.halted then (if s.limitWarning then some .cycleLimit else some .hlt) else none

end Sys2Proof.Machine
end

