-- ==== Sys2Proof/Machine/Arithmetic.lean ====
section
/-! DEFINITION. Arithmetic: ADB (spec/44_arithmetic.md R104). -/

namespace Sys2Proof.Machine

/-- ADB: the unreduced sum first, then the carry, the new accumulator, and the flag function on it (R104). -/
def execAdb (s : State) : Host.Outcome State Fault Refusal :=
  let r := adbSum (s.reg .a) (s.reg .b)
  let v : Byte := BitVec.ofNat 8 r
  .next ((s.setReg .a v).setFlags (flagsOf r v))

end Sys2Proof.Machine
end

