-- ==== Sys2Proof/Machine/Jump.lean ====
section
/-! DEFINITION. Control transfer: JMP (spec/46_jump.md R108). -/

namespace Sys2Proof.Machine

/-- JMP: `pc <- hi * 256 + lo`, not reduced (R108, R25, D3; log 6). -/
def execJmp (target : Addr) (s : State) : Host.Outcome State Fault Refusal := .next (s.setPc target)

end Sys2Proof.Machine
end

