-- ==== Sys2Proof/Machine/LoadImmediate.lean ====
section
/-! DEFINITION. Load immediate: LAI, LBI, LCI (spec/42_load_immediate.md R98 to R100). The immediate is the byte the
fetch read after the opcode. -/

namespace Sys2Proof.Machine

/-- LAI: `x[A] <- imm8` (R98). -/
def execLai (imm : Byte) (s : State) : Host.Outcome State Fault Refusal := .next (s.setReg .a imm)

/-- LBI: `x[B] <- imm8` (R99). -/
def execLbi (imm : Byte) (s : State) : Host.Outcome State Fault Refusal := .next (s.setReg .b imm)

/-- LCI: `x[C] <- imm8` (R100). -/
def execLci (imm : Byte) (s : State) : Host.Outcome State Fault Refusal := .next (s.setReg .c imm)

end Sys2Proof.Machine
end

