-- ==== Sys2Proof/Machine/MachineControl.lean ====
section
/-! DEFINITION. Machine control: HLT (spec/41_machine_control.md R97) and the no-op of the unassigned bytes
(spec/40_execution_cycle.md R91). -/

namespace Sys2Proof.Machine

/-- HLT: `halted <- true` (R97). -/
def execHlt (s : State) : Host.Outcome State Fault Refusal := .next s.halt

/-- An unassigned byte: nothing beyond its fetch (R91). -/
def execUnassigned (_op : Byte) (s : State) : Host.Outcome State Fault Refusal := .next s

end Sys2Proof.Machine
end

