-- ==== Sys2Proof/Machine/Operands.lean ====
section
/-! DEFINITION. The operand forms (spec/30_encoding.md R61 to R63; spec/10_state.md R37; the head of
spec/45_memory_reference.md). An immediate and a jump target reach a meaning as the constructor's argument, and a
register operand is implied by the mnemonic; what is computed here is the one addressing mode, register-pair indirect
through HL. -/

namespace Sys2Proof.Machine

/-- `HL = ((x[H] mod 64) * 256) + x[L]` (R37). -/
def State.hl (s : State) : Nat := (s.reg .h).toNat % 64 * 256 + (s.reg .l).toNat

/-- `MemRead(HL, 1)` (R106). -/
def State.loadHL (s : State) : Byte := s.memRead s.hl

/-- `MemWrite(HL, 1, v)` (R107). -/
def State.storeHL (s : State) (v : Byte) : State := s.memWrite s.hl v

end Sys2Proof.Machine
end

