-- ==== Sys2Proof/Machine/MemoryReference.lean ====
section
/-! DEFINITION. Memory reference: LAM, LMA (spec/45_memory_reference.md R106, R107). -/

namespace Sys2Proof.Machine

/-- LAM: `x[A] <- MemRead(HL, 1)` (R106). -/
def execLam (s : State) : Host.Outcome State Fault Refusal := .next (s.setReg .a s.loadHL)

/-- LMA: `MemWrite(HL, 1, x[A])` (R107). -/
def execLma (s : State) : Host.Outcome State Fault Refusal := .next (s.storeHL (s.reg .a))

end Sys2Proof.Machine
end

