-- ==== Sys2Proof/Machine/RegisterMove.lean ====
section
/-! DEFINITION. Register moves: LAB, LBA (spec/43_register_move.md R101, R102). -/

namespace Sys2Proof.Machine

/-- LAB: `x[A] <- x[B]` (R101). -/
def execLab (s : State) : Host.Outcome State Fault Refusal := .next (s.setReg .a (s.reg .b))

/-- LBA: `x[B] <- x[A]` (R102). -/
def execLba (s : State) : Host.Outcome State Fault Refusal := .next (s.setReg .b (s.reg .a))

end Sys2Proof.Machine
end

