-- ==== Sys2Proof/Syntax.lean ====
section
/-! DEFINITION. The instructions of TOY8, one constructor per row of spec/opcode_table.json, and the ten mnemonics of
the Instruction Descriptor table (spec/00_scope.md R13; spec/30_encoding.md R58, R63). -/

namespace Sys2Proof

/-- The ten mnemonics of the Instruction Descriptor table (R13, R64). -/
inductive Mnemonic where
  | hlt | lai | lbi | lci | lab | lba | adb | lam | lma | jmp
  deriving DecidableEq, Repr

/-- Every mnemonic, in the order in which R90 tests them. -/
def Mnemonic.all : List Mnemonic :=
  [.hlt, .lai, .lbi, .lci, .lab, .lba, .adb, .lam, .lma, .jmp]

/-- A decoded instruction with its operands. Register operands are implied by the constructor (R63). -/
inductive Instr where
  /-- HLT (R97). -/
  | hlt
  /-- LAI imm8 (R98). -/
  | lai (imm : Byte)
  /-- LBI imm8 (R99). -/
  | lbi (imm : Byte)
  /-- LCI imm8 (R100). -/
  | lci (imm : Byte)
  /-- LAB (R101). -/
  | lab
  /-- LBA (R102). -/
  | lba
  /-- ADB (R104). -/
  | adb
  /-- LAM (R106). -/
  | lam
  /-- LMA (R107). -/
  | lma
  /-- JMP addr16 (R108). -/
  | jmp (target : Addr)
  /-- An opcode byte that is none of the ten (R67, R91): the table's row `(unassigned)`. -/
  | unassigned (op : Byte)
  deriving DecidableEq, Repr

end Sys2Proof
end

