-- ==== Sys2Proof/Machine/Dispatch.lean ====
section
/-! DEFINITION. The meaning of each instruction, one arm per constructor: the execute phase of R88 and R90
(spec/40_execution_cycle.md), run after the instruction's bytes have been fetched and before the cycle count. -/

namespace Sys2Proof.Machine

def exec (i : Instr) (s : State) : Host.Outcome State Fault Refusal :=
  match i with
  | .hlt => Sys2Proof.Machine.execHlt s
  | .lai imm => Sys2Proof.Machine.execLai imm s
  | .lbi imm => Sys2Proof.Machine.execLbi imm s
  | .lci imm => Sys2Proof.Machine.execLci imm s
  | .lab => Sys2Proof.Machine.execLab s
  | .lba => Sys2Proof.Machine.execLba s
  | .adb => Sys2Proof.Machine.execAdb s
  | .lam => Sys2Proof.Machine.execLam s
  | .lma => Sys2Proof.Machine.execLma s
  | .jmp target => Sys2Proof.Machine.execJmp target s
  | .unassigned op => Sys2Proof.Machine.execUnassigned op s

end Sys2Proof.Machine
end

