-- ==== Sys2Proof/WellFormed.lean ====
section
/-! DEFINITION. The checks on syntax: which opcode maps R64 of spec/30_encoding.md admits, and which instructions have
an encoding under a map. -/

namespace Sys2Proof

/-- R64: the ten bytes are pairwise distinct and HLT is 0x01. (The third constraint, each mnemonic's arity, is
`Mnemonic.operandBytes` of Decode.lean under every map.) -/
def OpcodeMap.wf (m : OpcodeMap) : Bool :=
  decide m.bytes.Nodup && decide (m.hlt = 0x01#8)

/-- R58, R67: an `unassigned` instruction stands for a byte that is none of the ten. The operands of the other
instructions are unrestricted (R69): their widths are in their types. -/
def Instr.wf (m : OpcodeMap) : Instr → Bool
  | .unassigned op => decide (op ∉ m.bytes)
  | .hlt | .lai _ | .lbi _ | .lci _ | .lab | .lba | .adb | .lam | .lma | .jmp _ => true

end Sys2Proof
end

