-- ==== Sys2Proof/Decode.lean ====
section
/-! DEFINITION. The decoder and the encoder (spec/30_encoding.md), under every opcode map, and the default binding of
the map. -/

namespace Sys2Proof

/-- R65: the default binding. HLT's byte is the source's; the other nine are the spec's choice, Intel 8008 bytes
(D1). PRESUMED, log 1. -/
def defaultOpcodeMap : OpcodeMap where
  hlt := 0x01#8
  lai := 0x06#8
  lbi := 0x0E#8
  lci := 0x16#8
  lab := 0xC1#8
  lba := 0xC8#8
  adb := 0x81#8
  lam := 0xC7#8
  lma := 0xF8#8
  jmp := 0x44#8

/-- `OP(m)`: the opcode byte of a mnemonic (R12, R64). -/
def OpcodeMap.byte (m : OpcodeMap) : Mnemonic → Byte
  | .hlt => m.hlt
  | .lai => m.lai
  | .lbi => m.lbi
  | .lci => m.lci
  | .lab => m.lab
  | .lba => m.lba
  | .adb => m.adb
  | .lam => m.lam
  | .lma => m.lma
  | .jmp => m.jmp

/-- R60, R87: the mnemonic whose byte equals `op`, the whole byte compared; none for an unassigned byte (R67).
DESIGN CHOICE of the spec (D2), log 2. -/
def OpcodeMap.lookup (m : OpcodeMap) (op : Byte) : Option Mnemonic :=
  Mnemonic.all.find? (fun k => m.byte k == op)

/-- R58: the arity of a mnemonic, its number of operand bytes. -/
def Mnemonic.operandBytes : Mnemonic → Nat
  | .hlt | .lab | .lba | .adb | .lam | .lma => 0
  | .lai | .lbi | .lci => 1
  | .jmp => 2

/-- R59: the number of operand bytes, told from the opcode byte alone; an unassigned byte has none. -/
def operandCount (m : OpcodeMap) (op : Byte) : Nat :=
  match m.lookup op with
  | some k => k.operandBytes
  | none => 0

/-- R62: `addr16 = high * 256 + low`, not reduced. -/
def addr16 (low high : Byte) : Addr := BitVec.ofNat 16 (high.toNat * 256 + low.toNat)

/-- Bits 7:0 of an address, its first operand byte (R58, R62). -/
def lowByte (a : Addr) : Byte := BitVec.ofNat 8 a.toNat

/-- Bits 15:8 of an address, its second operand byte (R58, R62). -/
def highByte (a : Addr) : Byte := BitVec.ofNat 8 (a.toNat / 256)

/-- The instruction of an opcode byte and the two bytes after it; a format with fewer operand bytes does not look at
the later ones (R58, R61, R62, R67). Total on all bytes (R68). -/
def decodeBytes (m : OpcodeMap) (op b1 b2 : Byte) : Instr :=
  match m.lookup op with
  | some .hlt => .hlt
  | some .lai => .lai b1
  | some .lbi => .lbi b1
  | some .lci => .lci b1
  | some .lab => .lab
  | some .lba => .lba
  | some .adb => .adb
  | some .lam => .lam
  | some .lma => .lma
  | some .jmp => .jmp (addr16 b1 b2)
  | none => .unassigned op

/-- Why a finite list of bytes holds no instruction. No byte value is rejected (R68); only a list that ends too early
is. The machine's own fetch reads wrapped memory, which never ends (R45). -/
inductive DecodeError where
  /-- The list is empty. -/
  | noOpcode
  /-- The list ends before the last operand byte. -/
  | missingOperands
  deriving DecidableEq, Repr

/-- The first instruction of a list of bytes, and the bytes after it. -/
def decode (m : OpcodeMap) : List Byte → Except DecodeError (Instr × List Byte)
  | [] => .error .noOpcode
  | op :: rest =>
    match operandCount m op, rest with
    | 0, rest => .ok (decodeBytes m op 0#8 0#8, rest)
    | 1, b1 :: rest => .ok (decodeBytes m op b1 0#8, rest)
    | 2, b1 :: b2 :: rest => .ok (decodeBytes m op b1 b2, rest)
    | _, _ => .error .missingOperands

/-- The bytes of an instruction (R58, R82): opcode byte, then the operand, the low byte of an address first. -/
def encode (m : OpcodeMap) : Instr → List Byte
  | .hlt => [m.hlt]
  | .lai imm => [m.lai, imm]
  | .lbi imm => [m.lbi, imm]
  | .lci imm => [m.lci, imm]
  | .lab => [m.lab]
  | .lba => [m.lba]
  | .adb => [m.adb]
  | .lam => [m.lam]
  | .lma => [m.lma]
  | .jmp target => [m.jmp, lowByte target, highByte target]
  | .unassigned op => [op]

/-- R58: the length of an instruction in bytes, `1 + arity`. -/
def Instr.length : Instr → Nat
  | .hlt | .lab | .lba | .adb | .lam | .lma | .unassigned _ => 1
  | .lai _ | .lbi _ | .lci _ => 2
  | .jmp _ => 3

/-- Byte `k` of a word whose bit 0 is the least significant bit of the first byte, bits from `nbits` up being 0. -/
def tableByte (nbits w k : Nat) : Byte := BitVec.ofNat 8 ((w % 2 ^ nbits) / 256 ^ k)

/-- The bytes of a table word up to the longest instruction, three bytes, in address order (R45). -/
def tableBytes (nbits w : Nat) : List Byte :=
  [tableByte nbits w 0, tableByte nbits w 1, tableByte nbits w 2]

/-- The instruction the decoder reads, under the default binding, from a word numbered as spec/opcode_table.json numbers
it. -/
def decodeTableWord (nbits w : Nat) : Option Instr :=
  match decode defaultOpcodeMap (tableBytes nbits w) with
  | .ok (i, _) => some i
  | .error _ => none

end Sys2Proof
end

