-- ==== Sys2Proof/Machine/Fetch.lean ====
section
/-! DEFINITION. Fetching an instruction (spec/40_execution_cycle.md R86 to R88; spec/20_memory.md R45): byte by byte at
the program counter, in increasing address order with wrap-around. Every operand byte of R90's arms is read before the
arm's first write, so reading them here, before the execute phase, reads the same bytes. -/

namespace Sys2Proof.Machine

/-- The instruction at the program counter and the state whose program counter is past its last byte. -/
def fetchInstr (m : OpcodeMap) (s : State) : Instr × State :=
  let (op, s1) := fetch8 s
  match operandCount m op with
  | 0 => (decodeBytes m op 0#8 0#8, s1)
  | 1 =>
    let (b1, s2) := fetch8 s1
    (decodeBytes m op b1 0#8, s2)
  | _ =>
    let (b1, s2) := fetch8 s1
    let (b2, s3) := fetch8 s2
    (decodeBytes m op b1 b2, s3)

/-- The bytes from an address up, in increasing address order with wrap-around (R45). -/
def State.bytesAt (s : State) (addr : Nat) : Nat → List Byte
  | 0 => []
  | n + 1 => s.memRead addr :: State.bytesAt s (addr + 1) n

/-- Bytes stored from an address up, in increasing address order with wrap-around. -/
def State.storeBytes (s : State) (addr : Nat) : List Byte → State
  | [] => s
  | v :: rest => State.storeBytes (s.memWrite addr v) (addr + 1) rest

/-- A table word stored at the program counter, up to the longest instruction's three bytes. -/
def State.storeTableWord (s : State) (nbits w : Nat) : State :=
  s.storeBytes s.pc.toNat (tableBytes nbits w)

end Sys2Proof.Machine
end

