-- ==== Sys2Proof/Machine/Load.lean ====
section
/-! DEFINITION. The host's load of a program image (spec/70_reset_and_hazards.md R123, R124; D5, log 8). -/

namespace Sys2Proof.Machine

/-- `wrap8(n) = n mod 256` with the floor modulus (R9, R10). -/
def wrap8 (n : Int) : Byte := BitVec.ofInt 8 n

/-- Image entries written from index `i` up, in increasing order (R123). -/
def loadFrom (i : Nat) : List Int → State → State
  | [], s => s
  | n :: rest, s => loadFrom (i + 1) rest (s.memWrite i (wrap8 n))

/-- R123: entry `i` goes to address `i mod 16384`, reduced mod 256. -/
def loadImage (img : List Int) (s : State) : State := loadFrom 0 img s

/-- The state a run starts from: the reset state with the image loaded at address 0 (R84, R122, R123). -/
def initialState (img : List Int) : State := loadImage img State.reset

end Sys2Proof.Machine
end

