-- ==== Sys2Proof/Machine/Engine.lean ====
section
/-! DEFINITION. The execution engine (spec/40_execution_cycle.md): one iteration, when one is enabled, the forced halt at
the end of the budget, and the run, all under any configuration; and the default configuration. -/

namespace Sys2Proof.Machine

/-- `CYCLE_LIMIT` default (R7, R84). -/
def defaultCycleLimit : Nat := 200000

/-- The configuration of `step`: the default opcode map (R65, log 1) and cycle limit. -/
def defaultConfig : Config := ⟨defaultOpcodeMap, defaultCycleLimit⟩

/-- R85: an iteration is enabled exactly when `halted = false` and `cycles < CYCLE_LIMIT`. -/
def State.enabled (cfg : Config) (s : State) : Bool := !s.halted && decide (s.cycles < cfg.cycleLimit)

/-- One iteration: fetch, execute, count (R86 to R90). -/
def iteration (cfg : Config) (s : State) : Host.Outcome State Fault Refusal :=
  let (i, s1) := fetchInstr cfg.opcodes s
  match exec i s1 with
  | .next s2 => .next s2.countCycle
  | .fault r => .fault r
  | .refused r => .refused r

/-- One step of the engine: an iteration where one is enabled; the forced halt where the budget is spent (R93, D4, log
7); and nothing where the machine has halted, for the halted state is terminal and survives unchanged (R85, R121; log
3). -/
def engineStep (cfg : Config) (s : State) : Host.Outcome State Fault Refusal :=
  if s.halted then .next s
  else if s.enabled cfg then iteration cfg s
  else .next s.exhaust

/-- "Runs a bounded loop, at most `cycle_limit` iterations", ended at once by `halted` (R84, R85). -/
def boundedLoop (cfg : Config) : Nat → State → Host.Outcome State Fault Refusal
  | 0, s => .next s
  | n + 1, s =>
    if s.halted then .next s
    else
      match iteration cfg s with
      | .next t => boundedLoop cfg n t
      | .fault r => .fault r
      | .refused r => .refused r

/-- After the loop: where it has ended without halting, halted is forced true and the warning appended (R93). -/
def State.endOfRun (s : State) : State := if s.halted then s else s.exhaust

/-- `run(image, cycle_limit)` (R84): its answer's state holds the status suffix (`limitWarning`). -/
def run (cfg : Config) (img : List Int) : Host.Outcome State Fault Refusal :=
  match boundedLoop cfg cfg.cycleLimit (initialState img) with
  | .next s => .next s.endOfRun
  | .fault r => .fault r
  | .refused r => .refused r

end Sys2Proof.Machine
end

