-- ==== Sys2Proof/Machine/Step.lean ====
section
/-! DEFINITION. The machine's step: the engine's step under the default configuration, and the placing of an instruction
where the step fetches. -/

namespace Sys2Proof.Machine

/-- One step under the default opcode map and cycle limit (Engine.lean has the step under any configuration). -/
def step (s : State) : Host.Outcome State Fault Refusal := engineStep defaultConfig s

/-- The instruction with the bits of `w` stored where the next step fetches, at the program counter (R86). Nothing else
changes: in a halted state, or one whose budget is spent, no instruction runs whatever memory holds (R85). -/
def State.withFetchWord (s : State) (nbits w : Nat) : State := s.storeTableWord nbits w

end Sys2Proof.Machine
end

