-- ==== Sys2Proof/Machine/Assembler.lean ====
section
/-! DEFINITION. The assembler as the host's interface (spec/30_encoding.md section 5, R71 to R83): source text to program
image. Text is a list of characters. Message texts are not modelled: an error records its kind, its line, the
upper-cased mnemonic and the counts (D9; log 11). -/

namespace Sys2Proof.Machine

/-- The name of a mnemonic in the descriptor table, upper case (R72). -/
def mnemonicName : Mnemonic → List Char
  | .hlt => ['H', 'L', 'T']
  | .lai => ['L', 'A', 'I']
  | .lbi => ['L', 'B', 'I']
  | .lci => ['L', 'C', 'I']
  | .lab => ['L', 'A', 'B']
  | .lba => ['L', 'B', 'A']
  | .adb => ['A', 'D', 'B']
  | .lam => ['L', 'A', 'M']
  | .lma => ['L', 'M', 'A']
  | .jmp => ['J', 'M', 'P']

/-- What is wrong with a line (R73, R74, R77). -/
inductive AssemblyErrorKind where
  /-- No row of the descriptor table has the name (R73). -/
  | unknownMnemonic
  /-- The number of operand tokens is not the mnemonic's (R74). -/
  | operandCount (expected actual : Nat)
  /-- An operand token is no decimal integer (R77, D8). -/
  | badOperand (token : List Char)
  deriving DecidableEq, Repr

/-- An AssemblyError as D9 records it. -/
structure AssemblyError where
  /-- The 1-based number of the source line, blank and comment-only lines counted (R71, R73, D8). -/
  line : Nat
  /-- The mnemonic in its upper-cased form (R73, C7). -/
  mnemonic : List Char
  kind : AssemblyErrorKind
  deriving DecidableEq, Repr

/-- White space between tokens: space, tab, CR, LF, vertical tab, form feed. DESIGN CHOICE, log 10. -/
def isBlank (c : Char) : Bool :=
  c == ' ' || c == '\t' || c == '\r' || c == '\n' || c == Char.ofNat 11 || c == Char.ofNat 12

/-- A character put before the first of a list of pieces. -/
def consFirst (c : Char) : List (List Char) → List (List Char)
  | [] => [[c]]
  | t :: ts => (c :: t) :: ts

/-- The physical lines of a text, which end at LF (R71, D8). -/
def splitLines : List Char → List (List Char)
  | [] => [[]]
  | c :: cs => if c == '\n' then [] :: splitLines cs else consFirst c (splitLines cs)

/-- A line without its comment, which runs from `;` to its end (R71). -/
def stripComment (line : List Char) : List Char := line.takeWhile (fun c => !(c == ';'))

/-- A line split on runs of white space (R72); leading and trailing white space gives no token (R71). -/
def tokens : List Char → List (List Char)
  | [] => []
  | c :: cs =>
    if isBlank c then tokens cs
    else if (cs.head?.map isBlank).getD true then [c] :: tokens cs
    else consFirst c (tokens cs)

/-- A token in upper case (R72). ASCII letters, DESIGN CHOICE, log 10. -/
def upperCase (token : List Char) : List Char := token.map Char.toUpper

/-- The descriptor table's row for an upper-cased name (R72, R73). -/
def mnemonicOfName (name : List Char) : Option Mnemonic :=
  Mnemonic.all.find? (fun k => mnemonicName k == name)

/-- The operand tokens a mnemonic takes: none for `IMP`, one for `IMM8`, one for `ADDR16` (R74). -/
def operandTokens (k : Mnemonic) : Nat := if k.operandBytes = 0 then 0 else 1

/-- The value of a decimal digit. -/
def digitValue (c : Char) : Option Nat :=
  if '0'.toNat ≤ c.toNat ∧ c.toNat ≤ '9'.toNat then some (c.toNat - '0'.toNat) else none

/-- Decimal digits read after those of `acc`. -/
def digitsFrom (acc : Nat) : List Char → Option Nat
  | [] => some acc
  | c :: cs => (digitValue c).bind (fun d => digitsFrom (acc * 10 + d) cs)

/-- One or more decimal digits. -/
def parseDigits : List Char → Option Nat
  | [] => none
  | c :: cs => digitsFrom 0 (c :: cs)

/-- An operand token: an optional sign, then one or more decimal digits (R77, D8). -/
def parseOperand : List Char → Option Int
  | '+' :: digits => (parseDigits digits).map (fun n : Nat => (n : Int))
  | '-' :: digits => (parseDigits digits).map (fun n : Nat => -(n : Int))
  | digits => (parseDigits digits).map (fun n : Nat => (n : Int))

/-- The image entries of a mnemonic's operand value: one entry as parsed for `IMM8`, with no range check (R75); low byte
then high byte for `ADDR16`, with the floor modulus and the floor quotient (R76). -/
def operandEntries (k : Mnemonic) (n : Int) : List Int :=
  match k.operandBytes with
  | 0 => []
  | 1 => [n]
  | _ => [n.fmod 256, (n.fdiv 256).fmod 256]

/-- The image entry of a mnemonic's opcode byte. -/
def opcodeEntry (m : OpcodeMap) (k : Mnemonic) : Int := ((m.byte k).toNat : Int)

/-- The entries a line with a known mnemonic and the right number of operand tokens emits (R74 to R77). -/
def emitLine (m : OpcodeMap) (line : Nat) (k : Mnemonic) : List (List Char) → Except AssemblyError (List Int)
  | [] => .ok [opcodeEntry m k]
  | token :: _ =>
    match parseOperand token with
    | none => .error ⟨line, mnemonicName k, .badOperand token⟩
    | some n => .ok (opcodeEntry m k :: operandEntries k n)

/-- One physical line: nothing for a blank or comment-only line (R71); else the mnemonic is looked up (R73), its operand
tokens counted (R74) and its entries emitted. -/
def assembleLine (m : OpcodeMap) (line : Nat) (text : List Char) : Except AssemblyError (List Int) :=
  match tokens (stripComment text) with
  | [] => .ok []
  | name :: operands =>
    match mnemonicOfName (upperCase name) with
    | none => .error ⟨line, upperCase name, .unknownMnemonic⟩
    | some k =>
      if operands.length = operandTokens k then emitLine m line k operands
      else .error ⟨line, mnemonicName k, .operandCount (operandTokens k) operands.length⟩

/-- Lines numbered from `line` up; "Assembly stops at the first error" (R78). -/
def assembleLines (m : OpcodeMap) (line : Nat) : List (List Char) → Except AssemblyError (List Int)
  | [] => .ok []
  | text :: rest =>
    match assembleLine m line text with
    | .error e => .error e
    | .ok entries =>
      match assembleLines m (line + 1) rest with
      | .error e => .error e
      | .ok more => .ok (entries ++ more)

/-- The image of a source text (R79), its lines numbered from 1 (R71). -/
def assemble (m : OpcodeMap) (text : List Char) : Except AssemblyError (List Int) :=
  assembleLines m 1 (splitLines text)

/-- The host's failures before any execution (R110). -/
inductive HostError where
  /-- "no assembly code provided": no source text at all (R83). -/
  | missingInput
  /-- The AssemblyError of a line (R73, R74, R77). -/
  | assembly (e : AssemblyError)
  deriving DecidableEq, Repr

/-- R83: an absent text fails before any parsing; a present one, empty or not, is assembled (D13, log 12). -/
def assembleInput (m : OpcodeMap) : Option (List Char) → Except HostError (List Int)
  | none => .error .missingInput
  | some text =>
    match assemble m text with
    | .error e => .error (.assembly e)
    | .ok img => .ok img

end Sys2Proof.Machine
end

