-- ==== Sys2Proof/Machine/Report.lean ====
section
/-! DEFINITION. The host's report of a final state (spec/70_reset_and_hazards.md R128 to R130). Texts the source does not
give are the opaque constants of Config.lean (D11, D12; log 13). -/

namespace Sys2Proof.Machine

/-- First address of the rendered window (R129). -/
def windowFirst : Nat := 0xEEE

/-- Last address of the rendered window (R129). -/
def windowLast : Nat := 0xFFF

/-- How many addresses the window has: 274 (R129, D10, C4). -/
def windowSize : Nat := windowLast + 1 - windowFirst

/-- The character of a byte: its ASCII character from `PRINTABLE_MIN` to 126, else the placeholder (R129). -/
def renderByte (b : Byte) : Char :=
  if Config.printableMin ≤ b.toNat ∧ b.toNat ≤ 126 then Char.ofNat b.toNat else Config.placeholderGlyph

/-- The window in increasing address order, one character per byte (R129). -/
def renderWindow (s : State) : List Char :=
  (List.range' windowFirst windowSize).map (fun addr => renderByte (s.memRead addr))

/-- A flag as a single digit (R130). -/
def flagDigit (f : Bool) : Char := if f then '1' else '0'

/-- The four flags in Carry-Zero-Sign-Parity order (R130). -/
def flagDigits (f : Flags) : List Char := [flagDigit f.cf, flagDigit f.zf, flagDigit f.sf, flagDigit f.pf]

/-- The final line: A, B, C and the flag digits (R130, D12). -/
def finalLine (s : State) : List Char :=
  Config.finalLineFormat (s.reg .a) (s.reg .b) (s.reg .c) (flagDigits s.flags)

/-- The status message: the assembler's byte-count status, then the warning exactly when the run ended by cycle
exhaustion (R128). -/
def statusMessage (byteCount : Nat) (s : State) : List Char :=
  Config.statusText byteCount ++ (if s.limitWarning then Config.warningText else [])

/-- The report: status, separator, window, separator, final line (R128). -/
def report (byteCount : Nat) (s : State) : List Char :=
  statusMessage byteCount s ++ Config.separatorAfterStatus ++ renderWindow s ++ Config.separatorAfterWindow ++
    finalLine s

end Sys2Proof.Machine
end

