-- ==== Sys2Proof/Machine/HostRun.lean ====
section
/-! DEFINITION. One invocation, as the host drives it (spec/70_reset_and_hazards.md R125): input check, assembly, reset
state, image load, bounded loop, report. -/

namespace Sys2Proof.Machine

/-- What one invocation leaves: the image, the final state with its halt reason (R127), and the report (R128). -/
structure Invocation where
  image : List Int
  final : State
  text : List Char
  deriving DecidableEq, Repr

/-- The host's order of R125; a failure of the assembly runs nothing (R78, R83, R110). -/
def invoke (cfg : Config) (src : Option (List Char)) : Except HostError (Host.Outcome Invocation Fault Refusal) :=
  match assembleInput cfg.opcodes src with
  | .error e => .error e
  | .ok img =>
    .ok (match run cfg img with
      | .next s => .next ⟨img, s, report img.length s⟩
      | .fault r => .fault r
      | .refused r => .refused r)

end Sys2Proof.Machine
end

