-- ==== Sys2Proof/Safety.lean ====
section
/-! DEFINITION. The terms in which claims speak of a good state: the invariant of every reachable state (spec/10_state.md
R32, R34, R36; spec/40_execution_cycle.md R93, R94), and the state no instruction drives (R21, R22, R36). -/

namespace Sys2Proof.Machine

/-- The model's invariant under a configuration: memory and stack in canonical form, SP within its width, the cycle count
within the limit, and a warning only on a halted state whose budget is spent. Register, cell and flag ranges (R34) are
in the types. -/
structure State.Sound (cfg : Config) (s : State) : Prop where
  mem_wf : Memory.wf s.mem = true
  stack_wf : Cells.wfFrom Config.stackSize 0 s.stack = true
  sp_lt : s.sp < 2 ^ Config.spWidth
  cycles_le : s.cycles ≤ cfg.cycleLimit
  warning_halted : s.limitWarning = true → s.halted = true ∧ s.cycles = cfg.cycleLimit

/-- The state no instruction drives, at its reset value: D, E, H, L (R21, R22), SP and the stack (R36). -/
structure State.UndrivenAtReset (s : State) : Prop where
  d_zero : s.regs.d = 0#8
  e_zero : s.regs.e = 0#8
  h_zero : s.regs.h = 0#8
  l_zero : s.regs.l = 0#8
  sp_zero : s.sp = 0
  stack_empty : s.stack = []

end Sys2Proof.Machine
end

