-- ==== Sys2Proof/Certificates/Slice0/Obligations.lean ====
section
/-! DEFINITION. The statements for the provers. But for those about the default binding, each speaks of every
configuration: `cfg.opcodes.wf` is the constraint of R64 on the opcode map. The fixed `step` is `engineStep defaultConfig` (StepRunsTheDecodedInstruction says so). The
definitions under `Sys2Proof.Spec` transcribe the spec's pseudocode in plain terms, for statements to compare with. -/

open Sys2Proof Sys2Proof.Machine

/-! ## Transcriptions of the spec's pseudocode -/

/-- The number of set bits, as the sum of the eight bits (R9). -/
def Sys2Proof.Spec.bitCount (v : Byte) : Nat := ((List.range 8).map (fun k => (v.getLsbD k).toNat)).sum

/-- R104's pseudocode with R103's flag function: the state after ADB's execute phase. -/
def Sys2Proof.Spec.adbResult (s : State) : State :=
  let r := s.regs.a.toNat + s.regs.b.toNat
  let v : Byte := BitVec.ofNat 8 (r % 256)
  { s with
    regs := { s.regs with a := v }
    flags := ⟨decide (r > 255), decide (v.toNat = 0), decide (v.toNat ≥ 128), decide (Spec.bitCount v % 2 = 0)⟩ }

/-- R37's formula. -/
def Sys2Proof.Spec.hl (s : State) : Nat := s.regs.h.toNat % 64 * 256 + s.regs.l.toNat

/-- A state past `n` fetched bytes with one cycle counted, and nothing else changed (R24, R89). -/
def Sys2Proof.Spec.pastBytes (s : State) (n : Nat) : State :=
  { s with pc := BitVec.ofNat 16 ((s.pc.toNat + n) % 16384), cycles := s.cycles + 1 }

/-- R90's `step`, arm by arm, over R11's `fetch8`, `MemRead` and `MemWrite`. -/
def Sys2Proof.Spec.iterationR90 (m : OpcodeMap) (s0 : State) : State :=
  let (op, s) := fetch8 s0
  let s' : State :=
    if op = m.hlt then { s with halted := true }
    else if op = m.lai then
      let (v, s) := fetch8 s
      { s with regs := { s.regs with a := v } }
    else if op = m.lbi then
      let (v, s) := fetch8 s
      { s with regs := { s.regs with b := v } }
    else if op = m.lci then
      let (v, s) := fetch8 s
      { s with regs := { s.regs with c := v } }
    else if op = m.lab then { s with regs := { s.regs with a := s.regs.b } }
    else if op = m.lba then { s with regs := { s.regs with b := s.regs.a } }
    else if op = m.adb then Spec.adbResult s
    else if op = m.lam then { s with regs := { s.regs with a := Memory.read s.mem (Spec.hl s) } }
    else if op = m.lma then { s with mem := Memory.write s.mem (Spec.hl s) s.regs.a }
    else if op = m.jmp then
      let (lo, s) := fetch8 s
      let (hi, s) := fetch8 s
      { s with pc := BitVec.ofNat 16 (hi.toNat * 256 + lo.toNat) }
    else s
  { s' with cycles := s'.cycles + 1 }

/-- The register an instruction writes: R18, R19, R20 with R21 and R22. -/
def Sys2Proof.Spec.destination : Instr → Option Reg
  | .lai _ | .lab | .adb | .lam => some .a
  | .lbi _ | .lba => some .b
  | .lci _ => some .c
  | .hlt | .lma | .jmp _ | .unassigned _ => none

/-- Every line of a text before the one at index `k` is accepted, lines numbered from 1 (R71, R78). -/
def Sys2Proof.Spec.AcceptedBefore (m : OpcodeMap) (text : List Char) (k : Nat) : Prop :=
  ∀ (j : Nat) (line : List Char), j < k → (splitLines text)[j]? = some line →
    ∃ entries, assembleLine m (j + 1) line = .ok entries

/-- The operand tokens of a mnemonic: one for IMM8 and ADDR16, none for IMP (R58, R74). -/
def Sys2Proof.Spec.operandTokens (k : Mnemonic) : Nat := if k ∈ [Mnemonic.lai, .lbi, .lci, .jmp] then 1 else 0

/-- The characters of decimal digits (R77). -/
def Sys2Proof.Spec.digits (ds : List Nat) : List Char := ds.map (fun x => Char.ofNat (48 + x))

/-- The value of decimal digits in base ten (R77). -/
def Sys2Proof.Spec.value (ds : List Nat) : Nat := ds.foldl (fun acc x => acc * 10 + x) 0

/-- `1 + arity` of a source line's mnemonic, and nothing for a blank or comment-only line (R79). -/
def Sys2Proof.Spec.lineLength (line : List Char) : Nat :=
  match tokens (stripComment line) with
  | [] => 0
  | name :: _ => (mnemonicOfName (upperCase name)).elim 0 (fun k => 1 + k.operandBytes)

/-! ## Encoding -/

/-- Decoding what the encoder writes gives the instruction back, whatever bytes follow: no bit of an opcode or operand is
dropped (spec/30_encoding.md R58, R61, R62, R67). Every operand value, every admitted opcode map. -/
def Obligations.DecodeOfEncodeIsTheInstruction : Prop :=
  ∀ (m : OpcodeMap) (i : Instr) (rest : List Byte), m.wf = true → i.wf m = true →
    decode m (encode m i ++ rest) = .ok (i, rest)

/-- What decodes is the encoding of the well-formed instruction it decodes to, followed by the bytes left over; so two byte
strings that decode alike are alike (R58, R59, R67). Every opcode map. -/
def Obligations.EncodeOfDecodeIsTheBytes : Prop :=
  ∀ (m : OpcodeMap) (bytes : List Byte) (i : Instr) (rest : List Byte), decode m bytes = .ok (i, rest) →
    bytes = encode m i ++ rest ∧ i.wf m = true

/-- R59: the length is told from the opcode byte alone: 3 for JMP, 2 for the three IMM8 opcodes, 1 for the six IMP
opcodes and every unassigned byte; with that many bytes there the decoder answers and leaves the rest. -/
def Obligations.LengthToldFromTheOpcodeByteAlone : Prop :=
  ∀ (m : OpcodeMap) (op : Byte) (rest : List Byte), m.wf = true →
    let n := if op = m.jmp then 3 else if op = m.lai ∨ op = m.lbi ∨ op = m.lci then 2 else 1
    (n ≤ rest.length + 1 → ∃ i, i.length = n ∧ decode m (op :: rest) = .ok (i, (op :: rest).drop n)) ∧
      (rest.length + 1 < n → decode m (op :: rest) = .error .missingOperands)

/-- R62: `addr16 = high * 256 + low = byte2 ++ byte1`, not reduced modulo 16384, low byte first. -/
def Obligations.AddressOperandIsHighByteTimes256PlusLowByte : Prop :=
  ∀ (m : OpcodeMap) (low high : Byte) (rest : List Byte), m.wf = true →
    ∃ target : Addr, decode m (m.jmp :: low :: high :: rest) = .ok (.jmp target, rest) ∧
      target.toNat = high.toNat * 256 + low.toNat ∧ target = (high ++ low : BitVec (8 + 8))

/-- Ten byte values are assigned and the other 246 are not (R66, the spec's own inference from R64), under every admitted
map. -/
def Obligations.ExactlyTwoHundredFortySixBytesAreUnassigned : Prop :=
  ∀ m : OpcodeMap, m.wf = true →
    ((List.range 256).filter (fun n => decide ((BitVec.ofNat 8 n : Byte) ∉ m.bytes))).length = 246

/-- Words of the default binding, written out bit by bit from the R65 table, decode to the instructions they stand for.
But for HLT's, the bytes are the spec's choice D1 (log 1). -/
def Obligations.DefaultBindingWordsDecode : Prop :=
  defaultOpcodeMap.wf = true ∧
  decode defaultOpcodeMap [0b00000001#8] = .ok (.hlt, []) ∧
  decode defaultOpcodeMap [0b00000110#8, 0b11001000#8] = .ok (.lai 200#8, []) ∧
  decode defaultOpcodeMap [0b10000001#8] = .ok (.adb, []) ∧
  decode defaultOpcodeMap [0b11000001#8] = .ok (.lab, []) ∧
  decode defaultOpcodeMap [0b11111000#8] = .ok (.lma, []) ∧
  decode defaultOpcodeMap [0b01000100#8, 0b00110100#8, 0b00010010#8] = .ok (.jmp 0x1234#16, []) ∧
  decode defaultOpcodeMap [0b00000000#8] = .ok (.unassigned 0#8, [])

/-! ## The iteration -/

/-- A step of an enabled state is `exec` of the instruction that the bytes at the program counter decode to, run past its
bytes, then one cycle counted; those bytes always decode, to a well-formed instruction; and the fixed `step` is the
engine's step under the default configuration. -/
def Obligations.StepRunsTheDecodedInstruction : Prop :=
  (∀ (cfg : Config) (s : State) (i : Instr) (rest : List Byte), s.halted = false → s.cycles < cfg.cycleLimit →
    decode cfg.opcodes (s.bytesAt s.pc.toNat 3) = .ok (i, rest) →
    engineStep cfg s =
      match exec i { s with pc := BitVec.ofNat 16 ((s.pc.toNat + i.length) % 16384) } with
      | .next t => .next { t with cycles := t.cycles + 1 }
      | .fault r => .fault r
      | .refused r => .refused r) ∧
  (∀ (m : OpcodeMap) (s : State), ∃ i rest, decode m (s.bytesAt s.pc.toNat 3) = .ok (i, rest) ∧ i.wf m = true) ∧
  (∀ s : State, step s = engineStep defaultConfig s)

/-- One enabled step is the spec's whole iteration, R90, arm by arm, for every opcode map and every state. That JMP's arm
leaves the target unreduced in pc rests on the spec's choice D3 (log 6). -/
def Obligations.StepIsTheIterationOfTheSpec : Prop :=
  ∀ (cfg : Config) (s : State), s.halted = false → s.cycles < cfg.cycleLimit →
    engineStep cfg s = .next (Spec.iterationR90 cfg.opcodes s)

/-- A table word placed with `withFetchWord` is what the next fetch reads: the instruction `decodeTableWord` names (the
model's convention for its host interface, log 15). -/
def Obligations.FetchWordIsWhatTheNextFetchReads : Prop :=
  ∀ (s : State) (nbits w : Nat) (i : Instr), decodeTableWord nbits w = some i →
    (fetchInstr defaultOpcodeMap (s.withFetchWord nbits w)).1 = i ∧
      s.withFetchWord nbits w = { s with mem := (s.withFetchWord nbits w).mem }

/-- R24, R86: a fetch reads the byte at the program counter, reduced, and moves the program counter one further modulo the
memory capacity; it never leaves it above 16383, and from 16383 it wraps to 0. -/
def Obligations.FetchReadsTheByteAndAdvancesModuloCapacity : Prop :=
  (∀ s : State, fetch8 s =
    (Memory.read s.mem (s.pc.toNat % 16384), { s with pc := BitVec.ofNat 16 ((s.pc.toNat + 1) % 16384) })) ∧
  (∀ s : State, (fetch8 s).2.pc.toNat = (s.pc.toNat + 1) % 16384) ∧
  (∀ s : State, s.pc = 16383#16 → (fetch8 s).2.pc = 0#16)

/-- R89: every iteration counts as one cycle, whatever the instruction. -/
def Obligations.EveryIterationCountsOneCycle : Prop :=
  ∀ (cfg : Config) (s : State), s.halted = false → s.cycles < cfg.cycleLimit →
    ∃ t, engineStep cfg s = .next t ∧ t.cycles = s.cycles + 1

/-- No instruction, opcode byte, operand or address raises an exception; an unassigned opcode is a no-op, an address beyond
16383 wraps, an overflowing sum wraps and sets Carry (R109). That a step answers a next state also where the machine has
halted (log 3) or its budget is spent (log 7), where R96 has no step, is the model's choice. -/
def Obligations.NothingRaisesAnException : Prop :=
  (∀ (cfg : Config) (s : State), ∃ t, engineStep cfg s = .next t) ∧
  (∀ (i : Instr) (s : State), ∃ t, exec i s = .next t) ∧
  (∀ (op : Byte) (s : State), exec (.unassigned op) s = .next s) ∧
  (∀ (mem : Cells) (a : Nat) (v : Byte), Memory.read mem (a + 16384) = Memory.read mem a ∧
    Memory.write mem (a + 16384) v = Memory.write mem a v) ∧
  (∀ s : State, s.regs.a.toNat + s.regs.b.toNat > 255 →
    ∃ t, exec .adb s = .next t ∧ t.flags.cf = true ∧
      t.regs.a.toNat + 256 = s.regs.a.toNat + s.regs.b.toNat)

/-- A program counter above 16383 acts as its reduction: an enabled step from either gives the same next state, so only the
host can tell them apart (R25 with the spec's choice D3, log 6). -/
def Obligations.UnreducedProgramCounterIsUnobservable : Prop :=
  ∀ (cfg : Config) (s : State), s.halted = false → s.cycles < cfg.cycleLimit →
    engineStep cfg { s with pc := BitVec.ofNat 16 (s.pc.toNat % 16384) } = engineStep cfg s

/-! ## The instructions, each with its complete next state -/

/-- R97, HLT: the execute phase sets `halted` and nothing else; the iteration leaves pc after the HLT byte and counts one
cycle; no further iteration is enabled; the byte is 0x01 under every admitted map, length 1. -/
def Obligations.HltSetsHaltedAndNothingElse : Prop :=
  (∀ s : State, exec .hlt s = .next { s with halted := true }) ∧
  (∀ (cfg : Config) (s : State), s.halted = false → s.cycles < cfg.cycleLimit →
    s.memRead s.pc.toNat = cfg.opcodes.hlt →
    engineStep cfg s = .next { Spec.pastBytes s 1 with halted := true } ∧
      State.enabled cfg { Spec.pastBytes s 1 with halted := true } = false) ∧
  (∀ m : OpcodeMap, m.wf = true → encode m .hlt = [0x01#8])

/-- R98, LAI imm8: A takes the byte after the opcode, and nothing else changes but pc (past two bytes, wrapping) and the
count; no flag follows the value; format IMM8, length 2. The default byte 0x06 is the spec's choice D1 (log 1), and the
reduction of an assembled operand is D5 (log 8). -/
def Obligations.LaiLoadsTheAccumulator : Prop :=
  (∀ (imm : Byte) (s : State), exec (.lai imm) s = .next { s with regs := { s.regs with a := imm } }) ∧
  (∀ (cfg : Config) (s : State), cfg.opcodes.wf = true → s.halted = false → s.cycles < cfg.cycleLimit →
    s.memRead s.pc.toNat = cfg.opcodes.lai →
    engineStep cfg s =
      .next { Spec.pastBytes s 2 with regs := { s.regs with a := s.memRead (s.pc.toNat + 1) } }) ∧
  (∀ (m : OpcodeMap) (imm : Byte), encode m (.lai imm) = [m.lai, imm]) ∧ defaultOpcodeMap.lai = 0x06#8 ∧
  (∀ n : Int, operandEntries .lai n = [n]) ∧ wrap8 300 = 44#8 ∧ wrap8 (-1) = 255#8

/-- R99, LBI imm8: as LAI, with B in place of A. The default byte 0x0E is the spec's choice D1 (log 1), the reduction of an
assembled operand D5 (log 8). -/
def Obligations.LbiLoadsRegisterB : Prop :=
  (∀ (imm : Byte) (s : State), exec (.lbi imm) s = .next { s with regs := { s.regs with b := imm } }) ∧
  (∀ (cfg : Config) (s : State), cfg.opcodes.wf = true → s.halted = false → s.cycles < cfg.cycleLimit →
    s.memRead s.pc.toNat = cfg.opcodes.lbi →
    engineStep cfg s =
      .next { Spec.pastBytes s 2 with regs := { s.regs with b := s.memRead (s.pc.toNat + 1) } }) ∧
  (∀ (m : OpcodeMap) (imm : Byte), encode m (.lbi imm) = [m.lbi, imm]) ∧ defaultOpcodeMap.lbi = 0x0E#8 ∧
  (∀ n : Int, operandEntries .lbi n = [n]) ∧ wrap8 300 = 44#8 ∧ wrap8 (-1) = 255#8

/-- R100, LCI imm8: as LAI, with C in place of A; whatever C held or holds, no instruction reads it: a later step with
another value in C differs in C alone. The default byte 0x16 is the spec's choice D1 (log 1), the reduction of an assembled
operand D5 (log 8). -/
def Obligations.LciLoadsRegisterC : Prop :=
  (∀ (imm : Byte) (s : State), exec (.lci imm) s = .next { s with regs := { s.regs with c := imm } }) ∧
  (∀ (cfg : Config) (s : State), cfg.opcodes.wf = true → s.halted = false → s.cycles < cfg.cycleLimit →
    s.memRead s.pc.toNat = cfg.opcodes.lci →
    engineStep cfg s =
      .next { Spec.pastBytes s 2 with regs := { s.regs with c := s.memRead (s.pc.toNat + 1) } }) ∧
  (∀ (m : OpcodeMap) (imm : Byte), encode m (.lci imm) = [m.lci, imm]) ∧ defaultOpcodeMap.lci = 0x16#8 ∧
  (∀ n : Int, operandEntries .lci n = [n]) ∧ wrap8 300 = 44#8 ∧ wrap8 (-1) = 255#8 ∧
  (∀ (cfg : Config) (s t : State) (v : Byte), engineStep cfg s = .next t →
    ∃ w, engineStep cfg { s with regs := { s.regs with c := v } } = .next { t with regs := { t.regs with c := w } })

/-- R101, LAB: A takes B, and nothing else changes but pc and the count; length 1. The default byte 0xC1 is the spec's
choice D1 (log 1). -/
def Obligations.LabCopiesBToTheAccumulator : Prop :=
  (∀ s : State, exec .lab s = .next { s with regs := { s.regs with a := s.regs.b } }) ∧
  (∀ (cfg : Config) (s : State), cfg.opcodes.wf = true → s.halted = false → s.cycles < cfg.cycleLimit →
    s.memRead s.pc.toNat = cfg.opcodes.lab →
    engineStep cfg s = .next { Spec.pastBytes s 1 with regs := { s.regs with a := s.regs.b } }) ∧
  (∀ m : OpcodeMap, encode m .lab = [m.lab]) ∧ defaultOpcodeMap.lab = 0xC1#8

/-- R102, LBA: B takes A, and nothing else changes but pc and the count; a following ADB doubles A modulo 256; length 1.
The default byte 0xC8 is the spec's choice D1 (log 1). -/
def Obligations.LbaCopiesTheAccumulatorToB : Prop :=
  (∀ s : State, exec .lba s = .next { s with regs := { s.regs with b := s.regs.a } }) ∧
  (∀ (cfg : Config) (s : State), cfg.opcodes.wf = true → s.halted = false → s.cycles < cfg.cycleLimit →
    s.memRead s.pc.toNat = cfg.opcodes.lba →
    engineStep cfg s = .next { Spec.pastBytes s 1 with regs := { s.regs with b := s.regs.a } }) ∧
  (∀ s : State, ∃ t u, exec .lba s = .next t ∧ exec .adb t = .next u ∧
    u.regs.a.toNat = 2 * s.regs.a.toNat % 256) ∧
  (∀ m : OpcodeMap, encode m .lba = [m.lba]) ∧ defaultOpcodeMap.lba = 0xC8#8

/-- R103: Zero, Sign and Parity of a value, Sign being bit 7, Carry taken from the unreduced sum and not from the value;
R30: of 0 with no carry they are the reset flags, Carry 0, Zero 1, Sign 0, Parity 1. -/
def Obligations.FlagFunctionOfAValue : Prop :=
  (∀ (r : Nat) (v : Byte), flagsOf r v =
    ⟨decide (r > 255), decide (v = 0#8), v.getLsbD 7, decide (Spec.bitCount v % 2 = 0)⟩) ∧
  (∀ (r : Nat) (v : Byte), (flagsOf r v).sf = decide (v.toNat ≥ 128)) ∧
  State.reset.flags = { cf := false, zf := true, sf := false, pf := true } ∧ flagsOf 0 0#8 = State.reset.flags

/-- R104, ADB: the unreduced sum of A and B gives Carry, its reduction the new A, whose value gives Zero, Sign and Parity;
B and everything else stay but pc and the count; length 1. The default byte 0x81 is the spec's choice D1 (log 1). -/
def Obligations.AdbAddsBAndWritesAllFlags : Prop :=
  (∀ s : State, exec .adb s = .next (Spec.adbResult s)) ∧
  (∀ (cfg : Config) (s : State), cfg.opcodes.wf = true → s.halted = false → s.cycles < cfg.cycleLimit →
    s.memRead s.pc.toNat = cfg.opcodes.adb →
    engineStep cfg s = .next (Spec.adbResult (Spec.pastBytes s 1))) ∧
  (∀ m : OpcodeMap, encode m .adb = [m.adb]) ∧ defaultOpcodeMap.adb = 0x81#8

/-- Carry is bit 8 of the nine-bit sum and A its bits 7:0 (R105, the spec's own inference). -/
def Obligations.AdbIsTheNineBitSum : Prop :=
  ∀ s : State, ∃ t, exec .adb s = .next t ∧
    t.flags.cf = (s.regs.a.setWidth 9 + s.regs.b.setWidth 9).getLsbD 8 ∧
    t.regs.a = (s.regs.a.setWidth 9 + s.regs.b.setWidth 9).setWidth 8

/-- R37: HL is `((H mod 64) * 256) + L`, in bits `H[5:0] ++ L`, below 16384, whatever bits 7:6 of H are. -/
def Obligations.EffectiveAddressUsesLowSixBitsOfH : Prop :=
  (∀ s : State, s.hl = s.regs.h.toNat % 64 * 256 + s.regs.l.toNat ∧ s.hl < 16384 ∧
    s.hl = (s.regs.h.extractLsb' 0 6 ++ s.regs.l : BitVec (6 + 8)).toNat) ∧
  (∀ (s : State) (h : Byte), h.extractLsb' 0 6 = s.regs.h.extractLsb' 0 6 →
    State.hl { s with regs := { s.regs with h := h } } = s.hl)

/-- R106, LAM: A takes the byte at HL, and nothing else changes but pc and the count; length 1. The default byte 0xC7 is
the spec's choice D1 (log 1). -/
def Obligations.LamLoadsTheByteAtHL : Prop :=
  (∀ s : State, exec .lam s = .next { s with regs := { s.regs with a := Memory.read s.mem (Spec.hl s % 16384) } }) ∧
  (∀ (cfg : Config) (s : State), cfg.opcodes.wf = true → s.halted = false → s.cycles < cfg.cycleLimit →
    s.memRead s.pc.toNat = cfg.opcodes.lam →
    engineStep cfg s =
      .next { Spec.pastBytes s 1 with regs := { s.regs with a := Memory.read s.mem (Spec.hl s % 16384) } }) ∧
  (∀ s : State, s.regs.h = 0#8 → s.regs.l = 0#8 → Spec.hl s = 0) ∧
  (∀ m : OpcodeMap, encode m .lam = [m.lam]) ∧ defaultOpcodeMap.lam = 0xC7#8

/-- R107, LMA: the byte at HL takes A, every other byte stays, and nothing else changes but pc and the count; a later fetch
from that address reads the written byte; length 1. The default byte 0xF8 is the spec's choice D1 (log 1). -/
def Obligations.LmaStoresTheAccumulatorAtHL : Prop :=
  (∀ s : State, ∃ t, exec .lma s = .next t ∧ t = { s with mem := t.mem } ∧
    ∀ b : Nat, t.memRead b = if b % 16384 = Spec.hl s then s.regs.a else s.memRead b) ∧
  (∀ (cfg : Config) (s : State), cfg.opcodes.wf = true → s.halted = false → s.cycles < cfg.cycleLimit →
    s.memRead s.pc.toNat = cfg.opcodes.lma →
    ∃ t, engineStep cfg s = .next t ∧ t = { Spec.pastBytes s 1 with mem := t.mem } ∧
      (∀ b : Nat, t.memRead b = if b % 16384 = Spec.hl s then s.regs.a else s.memRead b) ∧
      (∀ p : Addr, p.toNat % 16384 = Spec.hl s → (fetch8 { t with pc := p }).1 = s.regs.a)) ∧
  (∀ s : State, s.regs.h = 0#8 → s.regs.l = 0#8 → Spec.hl s = 0) ∧
  (∀ m : OpcodeMap, encode m .lma = [m.lma]) ∧ defaultOpcodeMap.lma = 0xF8#8

/-- R108, JMP addr16: pc takes `high * 256 + low` of the two bytes after the opcode (read across the wrap where need be),
not reduced, and nothing else changes but the count; the next fetch reads the target reduced modulo 16384; length 3. The
default byte 0x44 is the spec's choice D1 (log 1), the unreduced value D3 (log 6). -/
def Obligations.JmpSetsTheProgramCounter : Prop :=
  (∀ (target : Addr) (s : State), exec (.jmp target) s = .next { s with pc := target }) ∧
  (∀ (cfg : Config) (s : State), cfg.opcodes.wf = true → s.halted = false → s.cycles < cfg.cycleLimit →
    s.memRead s.pc.toNat = cfg.opcodes.jmp →
    ∃ t, engineStep cfg s = .next t ∧ t = { s with pc := t.pc, cycles := s.cycles + 1 } ∧
      t.pc.toNat = (s.memRead ((s.pc.toNat + 2) % 16384)).toNat * 256 + (s.memRead ((s.pc.toNat + 1) % 16384)).toNat ∧
      (fetch8 t).1 = s.memRead (t.pc.toNat % 16384)) ∧
  (∀ (m : OpcodeMap) (target : Addr), encode m (.jmp target) =
    [m.jmp, BitVec.ofNat 8 (target.toNat % 256), BitVec.ofNat 8 (target.toNat / 256)]) ∧
  defaultOpcodeMap.jmp = 0x44#8

/-- R91: an unassigned byte is fetched and has no other effect, under every opcode map; length 1. That 0x00 is unassigned
is a matter of the default binding (D1, log 1). -/
def Obligations.UnassignedByteIsAOneByteNoOp : Prop :=
  (∀ (op : Byte) (s : State), exec (.unassigned op) s = .next s) ∧
  (∀ (cfg : Config) (s : State), s.halted = false → s.cycles < cfg.cycleLimit →
    s.memRead s.pc.toNat ∉ cfg.opcodes.bytes → engineStep cfg s = .next (Spec.pastBytes s 1)) ∧
  (∀ (m : OpcodeMap) (op : Byte), encode m (.unassigned op) = [op]) ∧ (0x00#8 : Byte) ∉ defaultOpcodeMap.bytes

/-! ## Frames and whole-machine rules -/

/-- What each instruction's execute phase leaves unchanged: every register but its destination, the flags but for ADB,
`halted` but for HLT, the program counter but for JMP, SP, the stack, the count and the warning always (template of
spec/41_machine_control.md; R18 to R22, R28, R31, R36). -/
def Obligations.FrameOfEveryInstruction : Prop :=
  ∀ (i : Instr) (s t : State), exec i s = .next t →
    (∀ r : Reg, Spec.destination i ≠ some r → t.reg r = s.reg r) ∧
    (i ≠ .adb → t.flags = s.flags) ∧
    (i ≠ .hlt → t.halted = s.halted) ∧
    ((∀ target, i ≠ .jmp target) → t.pc = s.pc) ∧
    t.sp = s.sp ∧ t.stack = s.stack ∧ t.cycles = s.cycles ∧ t.limitWarning = s.limitWarning

/-- Every byte of memory is unchanged by every instruction but LMA, and by LMA but for the byte at HL, computed as the
meaning computes it (R48, R107). -/
def Obligations.MemoryFrameOfEveryInstruction : Prop :=
  (∀ (i : Instr) (s t : State), i ≠ .lma → exec i s = .next t → ∀ a : Nat, t.memRead a = s.memRead a) ∧
  (∀ s t : State, exec .lma s = .next t → ∀ stored : Nat, s.hl = stored →
    ∀ a : Nat, a % 16384 ≠ stored → t.memRead a = s.memRead a)

/-- R28: a step that changes a flag executes ADB; ADB writes all four, whatever they were. -/
def Obligations.OnlyAdbWritesFlagsAndItWritesAllFour : Prop :=
  (∀ (cfg : Config) (s t : State), engineStep cfg s = .next t → t.flags ≠ s.flags →
    s.memRead s.pc.toNat = cfg.opcodes.adb) ∧
  (∀ (i : Instr) (s t : State), exec i s = .next t → t.flags ≠ s.flags → i = .adb) ∧
  (∀ (s : State) (f : Flags), exec .adb { s with flags := f } = exec .adb s)

/-- Who writes each register, over whole steps: A by LAI, LAB, ADB, LAM; B by LBI, LBA; C by LCI; D, E, H, L by nothing
(the writers that R18 to R22 list). -/
def Obligations.WhoWritesEachRegister : Prop :=
  ∀ (cfg : Config) (s t : State), engineStep cfg s = .next t →
    (t.regs.a ≠ s.regs.a → s.memRead s.pc.toNat ∈ [cfg.opcodes.lai, cfg.opcodes.lab, cfg.opcodes.adb, cfg.opcodes.lam]) ∧
    (t.regs.b ≠ s.regs.b → s.memRead s.pc.toNat ∈ [cfg.opcodes.lbi, cfg.opcodes.lba]) ∧
    (t.regs.c ≠ s.regs.c → s.memRead s.pc.toNat = cfg.opcodes.lci) ∧
    t.regs.d = s.regs.d ∧ t.regs.e = s.regs.e ∧ t.regs.h = s.regs.h ∧ t.regs.l = s.regs.l

/-- R20: C is written by LCI only, no instruction reads it, and the report's final line reads it. -/
def Obligations.RegisterCIsWrittenByLciAndReadByNoInstruction : Prop :=
  (∀ (cfg : Config) (s t : State), engineStep cfg s = .next t → t.regs.c ≠ s.regs.c →
    s.memRead s.pc.toNat = cfg.opcodes.lci) ∧
  (∀ (cfg : Config) (s t : State) (v : Byte), engineStep cfg s = .next t →
    ∃ w, engineStep cfg { s with regs := { s.regs with c := v } } = .next { t with regs := { t.regs with c := w } }) ∧
  (∀ s : State, finalLine s = Config.finalLineFormat s.regs.a s.regs.b s.regs.c (flagDigits s.flags))

/-- No instruction reads a flag: a step with other flags differs in the flags alone (R29, the spec's own inference). -/
def Obligations.NoInstructionReadsTheFlags : Prop :=
  ∀ (cfg : Config) (s t : State) (f : Flags), engineStep cfg s = .next t →
    ∃ f', engineStep cfg { s with flags := f } = .next { t with flags := f' }

/-- D, E, SP and the stack are neither read nor written: whatever they hold is carried through every step, and the step
does the same to all the rest (R21 and R36; the spec's own inference and its choice D6, log 4). -/
def Obligations.UnusedStateIsCarriedThrough : Prop :=
  ∀ (cfg : Config) (s t : State) (d e : Byte) (sp : Nat) (stack : Cells), engineStep cfg s = .next t →
    t.regs.d = s.regs.d ∧ t.regs.e = s.regs.e ∧ t.sp = s.sp ∧ t.stack = s.stack ∧
    engineStep cfg { s with regs := { s.regs with d := d, e := e }, sp := sp, stack := stack } =
      .next { t with regs := { t.regs with d := d, e := e }, sp := sp, stack := stack }

/-- `halted` is false at reset, set by HLT and by cycle exhaustion and by nothing else, never cleared, ends the loop (no
iteration is enabled), and is read by no instruction (R31). That exhaustion is a step of its own, taken wherever the count
has reached the limit or is above it, is log 7's choice (with the spec's D4); that an already halted state answers a next
state at all, itself, where R96 has no step, is log 3's. -/
def Obligations.HaltedIsSetByHltOrExhaustionAndNeverCleared : Prop :=
  State.reset.halted = false ∧
  (∀ s : State, ∃ t, exec .hlt s = .next t ∧ t.halted = true) ∧
  (∀ (cfg : Config) (s : State), s.halted = false → s.cycles < cfg.cycleLimit →
    s.memRead s.pc.toNat = cfg.opcodes.hlt → ∃ t, engineStep cfg s = .next t ∧ t.halted = true) ∧
  (∀ (cfg : Config) (s : State), cfg.cycleLimit ≤ s.cycles → ∃ t, engineStep cfg s = .next t ∧ t.halted = true) ∧
  (∀ (cfg : Config) (s t : State), engineStep cfg s = .next t → s.halted = true → t.halted = true) ∧
  (∀ (cfg : Config) (s t : State), engineStep cfg s = .next t → s.halted = false → t.halted = true →
    s.memRead s.pc.toNat = cfg.opcodes.hlt ∨ cfg.cycleLimit ≤ s.cycles) ∧
  (∀ (cfg : Config) (s : State), s.halted = true → s.enabled cfg = false) ∧
  (∀ (i : Instr) (s t : State) (b : Bool), exec i s = .next t →
    ∃ b', exec i { s with halted := b } = .next { t with halted := b' })

/-- No iteration runs in a halted state: a step leaves all of it as it is (R85, R121). That such a step answers the same
state is the model's form of "no step" (log 3). -/
def Obligations.HaltedStateIsTerminal : Prop :=
  ∀ (cfg : Config) (s : State), s.halted = true → engineStep cfg s = .next s

/-- Where the budget is spent without a halt, the engine forces the halt and appends the warning, and everything else stays
(R93); an HLT in the last allowed iteration ends the run without the warning (R93, R112). The spec's choice D4, and the
forced halt as a step of its own (log 7); that the halted state's step answers itself is log 3, and that the halt reason is
computed from a warning held in the state is log 5. -/
def Obligations.CycleExhaustionForcesTheHaltWithTheWarning : Prop :=
  (∀ (cfg : Config) (s : State), s.halted = false → s.cycles = cfg.cycleLimit →
    engineStep cfg s = .next { s with halted := true, limitWarning := true }) ∧
  (∀ (cfg : Config) (s : State), s.halted = false → s.limitWarning = false → s.cycles + 1 = cfg.cycleLimit →
    s.memRead s.pc.toNat = cfg.opcodes.hlt →
    ∃ t, engineStep cfg s = .next t ∧ t.haltReason = some .hlt ∧ engineStep cfg t = .next t)

/-- After an enabled step the program counter is below 16384 unless the step executed JMP (R24, R25). -/
def Obligations.OnlyJmpLeavesTheProgramCounterUnreduced : Prop :=
  ∀ (cfg : Config) (s t : State), s.halted = false → s.cycles < cfg.cycleLimit → engineStep cfg s = .next t →
    t.pc.toNat < 16384 ∨ s.memRead s.pc.toNat = cfg.opcodes.jmp

/-! ## Memory -/

/-- The memory primitives (R9, R10, R11): every address is reduced modulo 16384, a value modulo 256, a write replaces that
one cell, and `fetch8` reads at pc and moves it one further. That the modulus of a value is the floor modulus for negative
integers too is the spec's choice D5 (log 8). -/
def Obligations.MemoryPrimitives : Prop :=
  (∀ n : Nat, wrapA n = n % 16384) ∧
  (∀ n : Int, ((wrap8 n).toNat : Int) = n % 256) ∧
  (∀ (mem : Cells) (a : Nat), Memory.read mem a = Memory.read mem (a % 16384)) ∧
  (∀ (mem : Cells) (a b : Nat) (v : Byte), Memory.read (Memory.write mem a v) b =
    if b % 16384 = a % 16384 then v else Memory.read mem b) ∧
  (∀ s : State, fetch8 s =
    (Memory.read s.mem s.pc.toNat, { s with pc := BitVec.ofNat 16 ((s.pc.toNat + 1) % 16384) }))

/-- Canonical memories with the same byte at every address are the same data: the canonical form is one form (the model's
own representation of R33's array). -/
def Obligations.CanonicalMemoryIsDeterminedByItsBytes : Prop :=
  ∀ mem mem' : Cells, Memory.wf mem = true → Memory.wf mem' = true →
    (∀ a : Nat, a < 16384 → Memory.read mem a = Memory.read mem' a) → mem = mem'

/-- From a state with H = L = 0, as every reachable one is, a step changes memory at no address but 0, and keeps them 0
(R22, R43: the spec's own inference). -/
def Obligations.StoresReachAddressZeroOnly : Prop :=
  ∀ (cfg : Config) (s t : State), s.regs.h = 0#8 → s.regs.l = 0#8 → engineStep cfg s = .next t →
    (∀ a : Nat, a % 16384 ≠ 0 → t.memRead a = s.memRead a) ∧ t.regs.h = 0#8 ∧ t.regs.l = 0#8

/-- The byte LMA wrote, any byte, is what the next step executes from its address: with the program counter there, the
fetched instruction is the one the decoder gives for A's byte and the two bytes after it, and the step is `exec` of it past
its bytes with one cycle counted, with no delay; so a stored HLT byte halts (R55, R132: the spec's own inference). -/
def Obligations.StoredByteIsExecutedByTheNextFetch : Prop :=
  ∀ (cfg : Config) (s t : State) (p : Addr), exec .lma s = .next t → p.toNat % 16384 = s.hl →
    s.halted = false → s.cycles < cfg.cycleLimit →
    let i := decodeBytes cfg.opcodes s.regs.a (t.memRead (p.toNat + 1)) (t.memRead (p.toNat + 2))
    (fetchInstr cfg.opcodes { t with pc := p }).1 = i ∧
    (∃ u, exec i { t with pc := BitVec.ofNat 16 ((p.toNat + i.length) % 16384) } = .next u ∧
      engineStep cfg { t with pc := p } = .next { u with cycles := u.cycles + 1 }) ∧
    (s.regs.a = cfg.opcodes.hlt → ∃ u, engineStep cfg { t with pc := p } = .next u ∧ u.halted = true)

/-! ## Reset, load, run -/

/-- R122: the reset state. SP and stack zero are the spec's choice D6 (log 4). -/
def Obligations.ResetStateIsZeroedWithFlagDefaults : Prop :=
  (∀ r : Reg, State.reset.reg r = 0#8) ∧
  State.reset.flags = { cf := false, zf := true, sf := false, pf := true } ∧ State.reset.pc = 0#16 ∧
  (∀ a : Nat, State.reset.memRead a = 0#8) ∧ State.reset.halted = false ∧ State.reset.cycles = 0 ∧
  State.reset.sp = 0 ∧ (∀ k : Nat, Cells.get k State.reset.stack = 0#8)

/-- The image load: of the entries that fall on one address the last counts, reduced modulo 256; an address no entry falls
on keeps its byte; nothing but memory changes; and the run starts at address 0 (R123, R124; the spec's choice D5 for long
images and wide entries, log 8). -/
def Obligations.ImageLoadPlacesEveryEntry : Prop :=
  (∀ (img : List Int) (s : State) (k : Nat) (n : Int), img[k]? = some n →
    (∀ j : Nat, k < j → j < img.length → j % 16384 ≠ k % 16384) →
    (loadImage img s).memRead k = BitVec.ofInt 8 n) ∧
  (∀ (img : List Int) (s : State) (a : Nat), (∀ k : Nat, k < img.length → k % 16384 ≠ a % 16384) →
    (loadImage img s).memRead a = s.memRead a) ∧
  (∀ (img : List Int) (s : State), loadImage img s = { s with mem := (loadImage img s).mem }) ∧
  (∀ img : List Int, initialState img = loadImage img State.reset ∧ (initialState img).pc = 0#16)

/-- Every step keeps the model's invariant: canonical memory and stack, SP within its width, the count within the limit, a
warning only on a halted state whose budget is spent (R32, R33, R36, R93). For the fixed `step` as well. -/
def Obligations.EveryStepKeepsTheStateSound : Prop :=
  (∀ (cfg : Config) (s t : State), s.Sound cfg → engineStep cfg s = .next t → t.Sound cfg) ∧
  (∀ s t : State, s.Sound defaultConfig → step s = .next t → t.Sound defaultConfig)

/-- The invariant holds at reset and after every image load, under every configuration. -/
def Obligations.ResetAndLoadedStatesAreSound : Prop :=
  (∀ cfg : Config, State.reset.Sound cfg) ∧ (∀ (cfg : Config) (img : List Int), (initialState img).Sound cfg)

/-- The state no instruction drives keeps its reset value: every step keeps it, it holds at reset and after a load, and with
it HL is 0 (R21, R22, R36: the spec's own inference, and D6, log 4). -/
def Obligations.UndrivenStateStaysAtReset : Prop :=
  (∀ (cfg : Config) (s t : State), s.UndrivenAtReset → engineStep cfg s = .next t → t.UndrivenAtReset) ∧
  State.reset.UndrivenAtReset ∧ (∀ img : List Int, (initialState img).UndrivenAtReset) ∧
  (∀ s : State, s.UndrivenAtReset → s.hl = 0)

/-- Every run ends halted within its budget: by HLT with the state the loop left, or by exhaustion with exactly the limit's
iterations done, the halt forced and the warning appended (R84, R93, R94; the spec's choice D4, log 7; that the halt reason
is computed from a warning held in the state is log 5). -/
def Obligations.EveryRunTerminatesWithItsHaltReason : Prop :=
  ∀ (cfg : Config) (img : List Int), ∃ u t, boundedLoop cfg cfg.cycleLimit (initialState img) = .next u ∧
    run cfg img = .next t ∧ t.halted = true ∧ t.cycles ≤ cfg.cycleLimit ∧
    (u.halted = true → t = u ∧ t.haltReason = some .hlt ∧ t.limitWarning = false) ∧
    (u.halted = false → t = { u with halted := true, limitWarning := true } ∧ t.cycles = cfg.cycleLimit ∧
      t.haltReason = some .cycleLimit)

/-- The run of R84 and the host's repeated step are one machine: from a loaded image, any number of steps beyond the cycle
limit gives the run's final state. It rests on the model's choices that a halted state's step answers itself (log 3) and
that the forced halt is a step of its own (log 7). -/
def Obligations.RunIsTheRepeatedStep : Prop :=
  ∀ (img : List Int) (n : Nat), defaultCycleLimit < n →
    Host.Core.run core n (initialState img) = run defaultConfig img

/-- In every run, memory away from address 0 ends as it was loaded; so the report window 0xEEE..0xFFF is all zero at the end
unless the image has at least 3823 entries (R43, R50: the spec's own inference). -/
def Obligations.RunsLeaveMemoryAboveAddressZeroAsLoaded : Prop :=
  (∀ (cfg : Config) (img : List Int) (t : State), run cfg img = .next t →
    ∀ a : Nat, a % 16384 ≠ 0 → t.memRead a = (initialState img).memRead a) ∧
  (∀ (cfg : Config) (img : List Int) (t : State), img.length ≤ 3822 → run cfg img = .next t →
    ∀ a : Nat, 0xEEE ≤ a → a ≤ 0xFFF → t.memRead a = 0#8)

/-! ## The host's assembler and report -/

/-- Every assembled image, as loaded, is the encoding of a list of well-formed instructions, one per line that holds one,
and none of them an unassigned byte (R58, R74, R79, R82; the reduction of wide operands is D5, log 8). -/
def Obligations.AssembledImageIsEncodedInstructions : Prop :=
  ∀ (m : OpcodeMap) (text : List Char) (img : List Int), assemble m text = .ok img →
    ∃ prog : List Instr, img.map wrap8 = prog.flatMap (encode m) ∧
      (∀ i ∈ prog, i.wf m = true ∧ ∀ op, i ≠ .unassigned op) ∧
      prog.length = ((splitLines text).filter (fun line => decide (tokens (stripComment line) ≠ []))).length

/-- The image's length is the sum of `1 + arity` over the lines that hold an instruction (R79). -/
def Obligations.AssembledLengthIsTheSumOfInstructionLengths : Prop :=
  ∀ (m : OpcodeMap) (text : List Char) (img : List Int), assemble m text = .ok img →
    img.length = ((splitLines text).map Spec.lineLength).sum

/-- R78: assembly stops at the first error, whatever the later lines hold, and a failure runs nothing. -/
def Obligations.AssemblyStopsAtTheFirstError : Prop :=
  (∀ (m : OpcodeMap) (n : Nat) (before : List (List Char)) (line : List Char) (after : List (List Char))
      (e : AssemblyError),
    (∀ (k : Nat) (l : List Char), before[k]? = some l → ∃ entries, assembleLine m (n + k) l = .ok entries) →
    assembleLine m (n + before.length) line = .error e →
    assembleLines m n (before ++ line :: after) = .error e) ∧
  (∀ (cfg : Config) (text : List Char) (e : AssemblyError), assemble cfg.opcodes text = .error e →
    invoke cfg (some text) = .error (.assembly e))

/-- An unknown mnemonic on the line at index `k` of a text whose earlier lines are accepted fails the assembly with the
1-based line number `k + 1` and the upper-cased name (R73). That blank and comment-only lines are numbered as well is the
spec's choice D8 (log 10). -/
def Obligations.UnknownMnemonicFailsWithLineAndName : Prop :=
  ∀ (m : OpcodeMap) (text : List Char) (k : Nat) (line name : List Char) (operands : List (List Char)),
    (splitLines text)[k]? = some line → Spec.AcceptedBefore m text k →
    tokens (stripComment line) = name :: operands → mnemonicOfName (upperCase name) = none →
    assemble m text = .error ⟨k + 1, upperCase name, .unknownMnemonic⟩

/-- A known mnemonic with another number of operand tokens than its own (0 for IMP, 1 for IMM8 and ADDR16) fails with
line, mnemonic, expected and actual count, and so does the text whose first refused line it is; with its own number it
assembles: to the opcode byte alone for IMP, and for an operand token that parses to the opcode byte and the integer as
parsed (IMM8) or its low and high byte (ADDR16) (R74, R75, R76, R79, R82; the wide IMM8 entry is D5, log 8, the token's
syntax D8, log 10). -/
def Obligations.OperandTokensAreCounted : Prop :=
  ∀ (m : OpcodeMap) (line : Nat) (text name : List Char) (operands : List (List Char)) (k : Mnemonic),
    tokens (stripComment text) = name :: operands → mnemonicOfName (upperCase name) = some k →
    (operands.length ≠ Spec.operandTokens k →
      assembleLine m line text =
        .error ⟨line, upperCase name, .operandCount (Spec.operandTokens k) operands.length⟩ ∧
      ∀ (source : List Char) (j : Nat), (splitLines source)[j]? = some text → Spec.AcceptedBefore m source j →
        assemble m source =
          .error ⟨j + 1, upperCase name, .operandCount (Spec.operandTokens k) operands.length⟩) ∧
    (Spec.operandTokens k = 0 → operands = [] →
      assembleLine m line text = .ok [((m.byte k).toNat : Int)]) ∧
    (∀ (token : List Char) (n : Int), Spec.operandTokens k = 1 → operands = [token] → parseOperand token = some n →
      assembleLine m line text =
        .ok (((m.byte k).toNat : Int) :: if k = .jmp then [n % 256, n / 256 % 256] else [n])) ∧
    (∀ entries, assembleLine m line text = .ok entries →
      operands.length = Spec.operandTokens k ∧ entries.head? = some ((m.byte k).toNat : Int))

/-- R76: the operand of JMP is emitted as two bytes in [0,255], low byte first, for every integer; together they are the
integer modulo 65536. -/
def Obligations.JumpOperandIsEmittedLowByteFirst : Prop :=
  ∀ (m : OpcodeMap) (line : Nat) (token : List Char) (n : Int), parseOperand token = some n →
    ∃ low high : Int, emitLine m line .jmp [token] = .ok [((m.jmp.toNat : Nat) : Int), low, high] ∧
      low = n % 256 ∧ high = n / 256 % 256 ∧ 0 ≤ low ∧ low ≤ 255 ∧ 0 ≤ high ∧ high ≤ 255 ∧
      addr16 (wrap8 low) (wrap8 high) = BitVec.ofInt 16 n

/-- An operand token is accepted exactly where it is an optional sign and one or more decimal digits, read in base ten;
any other token fails its line, and the text whose first refused line it is, with the token and the 1-based line number
(R77, the spec's choice D8, log 10; the recorded token is log 11). -/
def Obligations.OperandTokenIsASignedDecimalInteger : Prop :=
  (∀ (token : List Char) (n : Int), parseOperand token = some n ↔
    ∃ ds : List Nat, ds ≠ [] ∧ (∀ x ∈ ds, x < 10) ∧
      ((token = Spec.digits ds ∧ n = (Spec.value ds : Int)) ∨
        (token = '+' :: Spec.digits ds ∧ n = (Spec.value ds : Int)) ∨
        (token = '-' :: Spec.digits ds ∧ n = -(Spec.value ds : Int)))) ∧
  (∀ (m : OpcodeMap) (line : Nat) (text name token : List Char) (k : Mnemonic),
    tokens (stripComment text) = [name, token] → mnemonicOfName (upperCase name) = some k →
    Spec.operandTokens k = 1 → parseOperand token = none →
    assembleLine m line text = .error ⟨line, upperCase name, .badOperand token⟩ ∧
    ∀ (source : List Char) (j : Nat), (splitLines source)[j]? = some text → Spec.AcceptedBefore m source j →
      assemble m source = .error ⟨j + 1, upperCase name, .badOperand token⟩)

/-- An absent source text fails with the missing-input error and runs nothing; a present one with no instruction assembles
to the empty image (R83, the spec's choice D13, log 12). -/
def Obligations.AbsentTextFailsAndBlankTextIsTheEmptyImage : Prop :=
  (∀ cfg : Config, invoke cfg none = .error .missingInput) ∧
  (∀ (m : OpcodeMap) (text : List Char), (∀ line ∈ splitLines text, tokens (stripComment line) = []) →
    assembleInput m (some text) = .ok [])

/-- The report: status, separator, window, separator, final line; the window is the 274 bytes from 0xEEE to 0xFFF in order,
a byte from 33 to 126 as its character, one below 32 or above 126 as the placeholder, and 32 as one or the other (R128,
R129, R130; the spec's choices D10, D11, D12, log 13). -/
def Obligations.ReportRendersTheWindowAndTheFlags : Prop :=
  (∀ s : State, (renderWindow s).length = 274 ∧
    ∀ k : Nat, k < 274 → (renderWindow s)[k]? = some (renderByte (s.memRead (0xEEE + k)))) ∧
  (∀ b : Byte, (33 ≤ b.toNat → b.toNat ≤ 126 → renderByte b = Char.ofNat b.toNat) ∧
    (b.toNat < 32 ∨ 126 < b.toNat → renderByte b = Config.placeholderGlyph) ∧
    (renderByte b = Char.ofNat b.toNat ∨ renderByte b = Config.placeholderGlyph)) ∧
  (∀ f : Flags, flagDigits f = [f.cf, f.zf, f.sf, f.pf].map (fun x => if x then '1' else '0')) ∧
  (∀ (n : Nat) (s : State), ∃ status,
    report n s = status ++ Config.separatorAfterStatus ++ renderWindow s ++ Config.separatorAfterWindow ++ finalLine s ∧
    (s.limitWarning = true → status = Config.statusText n ++ Config.warningText) ∧
    (s.limitWarning = false → status = Config.statusText n))

/-- Physical lines end at LF and are counted from 1, blank and comment-only lines included: a text is its first line and
the lines of what follows the LF, and the first line that does not assemble gives the text's error, recorded with its index
plus one (R71, R73, R78; the spec's choice D8, log 10). -/
def Obligations.PhysicalLinesEndAtLfAndCountFromOne : Prop :=
  (∀ line : List Char, '\n' ∉ line → splitLines line = [line] ∧
    ∀ rest : List Char, splitLines (line ++ '\n' :: rest) = line :: splitLines rest) ∧
  (∀ (m : OpcodeMap) (text line : List Char) (k : Nat) (e : AssemblyError), (splitLines text)[k]? = some line →
    Spec.AcceptedBefore m text k → assembleLine m (k + 1) line = .error e →
    assemble m text = .error e ∧ e.line = k + 1)
end

