-- ==== Sys2Proof/Laws/Assembler.lean ====
section
/-! SUPPORT. The small lemmas of the assembler: what a digit is, how lines split, what a list of lines answers by its first
line. -/

namespace Sys2Proof.Machine

/-- A digit's value is below ten and its character is that digit's (R77). -/
theorem digitValue_eq_some {c : Char} {d : Nat} (h : digitValue c = some d) : d < 10 ∧ c = Char.ofNat (48 + d) := by
  have h0 : '0'.toNat = 48 := rfl
  have h9 : '9'.toNat = 57 := rfl
  unfold digitValue at h
  split at h
  · rename_i hc
    rw [h0, h9] at hc
    have hd : c.toNat = 48 + d := by
      simp only [Option.some.injEq] at h
      omega
    exact ⟨by omega, by rw [← hd, Char.ofNat_toNat]⟩
  · simp at h

/-- The character of a digit below ten has that value. -/
theorem digitValue_ofNat {d : Nat} (h : d < 10) : digitValue (Char.ofNat (48 + d)) = some d := by
  interval_cases d <;> rfl

/-- The name looked up is the mnemonic's own (R72). -/
theorem mnemonicName_of_ofName {name : List Char} {k : Mnemonic} (h : mnemonicOfName name = some k) :
    mnemonicName k = name := by
  simpa using List.find?_some h

theorem splitLines_ne_nil (text : List Char) : splitLines text ≠ [] := by
  cases text with
  | nil => simp [splitLines]
  | cons c cs =>
    simp only [splitLines]
    split
    · simp
    · cases splitLines cs <;> simp [consFirst]

/-- A refused first line gives its error (R78). -/
theorem assembleLines_cons_error {m : OpcodeMap} {n : Nat} {line : List Char} {e : AssemblyError}
    (h : assembleLine m n line = .error e) (rest : List (List Char)) : assembleLines m n (line :: rest) = .error e := by
  simp [assembleLines, h]

/-- After an accepted first line the answer is the other lines', numbered one further (R71, R79). -/
theorem assembleLines_cons_ok {m : OpcodeMap} {n : Nat} {line : List Char} {entries : List Int}
    (h : assembleLine m n line = .ok entries) (rest : List (List Char)) :
    assembleLines m n (line :: rest) = (assembleLines m (n + 1) rest).map (entries ++ ·) := by
  simp only [assembleLines, h]
  cases assembleLines m (n + 1) rest <;> rfl

/-- A line whose first token is a known mnemonic with its own number of operand tokens is emitted (R74). -/
theorem assembleLine_of_counted {m : OpcodeMap} {line : Nat} {text name : List Char} {operands : List (List Char)}
    {k : Mnemonic} (ht : tokens (stripComment text) = name :: operands) (hk : mnemonicOfName (upperCase name) = some k)
    (hn : operands.length = operandTokens k) : assembleLine m line text = emitLine m line k operands := by
  simp [assembleLine, ht, hk, hn]

end Sys2Proof.Machine
end

