-- ==== Sys2Proof/Laws/Decode.lean ====
section
/-! SUPPORT. What the decoder's parts answer: the table lookup of an opcode byte under an admitted map, and the bytes an
instruction's fields are cut into. -/

namespace Sys2Proof

/-- A found mnemonic has the byte that was looked up, under every map. -/
theorem OpcodeMap.byte_of_lookup {m : OpcodeMap} {op : Byte} {k : Mnemonic} (h : m.lookup op = some k) :
    m.byte k = op := by
  simpa using List.find?_some h

theorem Mnemonic.mem_all (k : Mnemonic) : k ∈ Mnemonic.all := by cases k <;> decide

theorem OpcodeMap.bytes_eq_map (m : OpcodeMap) : m.bytes = Mnemonic.all.map m.byte := rfl

/-- No mnemonic is found exactly for an unassigned byte (R67), under every map. -/
theorem OpcodeMap.lookup_eq_none {m : OpcodeMap} {op : Byte} : m.lookup op = none ↔ op ∉ m.bytes := by
  unfold OpcodeMap.lookup
  rw [List.find?_eq_none, OpcodeMap.bytes_eq_map, List.mem_map]
  simp

theorem find_cons_ite (p : Mnemonic → Bool) (k : Mnemonic) (ks : List Mnemonic) :
    (k :: ks).find? p = if p k then some k else ks.find? p := by
  rw [List.find?_cons]
  cases p k <;> rfl

/-- The lookup as R90's chain of tests. -/
theorem OpcodeMap.lookup_eq_ite (m : OpcodeMap) (op : Byte) : m.lookup op =
    if op = m.hlt then some .hlt else if op = m.lai then some .lai else if op = m.lbi then some .lbi
    else if op = m.lci then some .lci else if op = m.lab then some .lab else if op = m.lba then some .lba
    else if op = m.adb then some .adb else if op = m.lam then some .lam else if op = m.lma then some .lma
    else if op = m.jmp then some .jmp else none := by
  simp only [OpcodeMap.lookup, Mnemonic.all, find_cons_ite, OpcodeMap.byte, List.find?_nil, beq_iff_eq, @eq_comm Byte op]

/-- Distinct mnemonics have distinct bytes under an admitted map (R64). -/
theorem OpcodeMap.byte_injective {m : OpcodeMap} (h : m.wf = true) {j k : Mnemonic} (hjk : m.byte j = m.byte k) :
    j = k := by
  have hn : (Mnemonic.all.map m.byte).Nodup := by
    rw [← OpcodeMap.bytes_eq_map]
    simp only [OpcodeMap.wf, Bool.and_eq_true, decide_eq_true_eq] at h
    exact h.1
  exact List.inj_on_of_nodup_map hn (Mnemonic.mem_all j) (Mnemonic.mem_all k) hjk

/-- Under an admitted map the byte of a mnemonic selects that mnemonic (R64, R90: at most one arm matches). -/
theorem OpcodeMap.lookup_byte {m : OpcodeMap} (h : m.wf = true) (k : Mnemonic) : m.lookup (m.byte k) = some k := by
  cases hk : m.lookup (m.byte k) with
  | none => exact absurd (List.mem_map_of_mem (Mnemonic.mem_all k)) (OpcodeMap.lookup_eq_none.1 hk)
  | some j => rw [OpcodeMap.byte_injective h (OpcodeMap.byte_of_lookup hk)]

theorem defaultOpcodeMap_wf : defaultOpcodeMap.wf = true := by decide

/-- R62 in the other direction: an address is put together again from its two bytes. -/
@[simp] theorem addr16_low_high (a : Addr) : addr16 (lowByte a) (highByte a) = a := by
  apply BitVec.eq_of_toNat_eq
  simp only [addr16, lowByte, highByte, BitVec.toNat_ofNat]
  have := a.isLt
  omega

@[simp] theorem lowByte_addr16 (lo hi : Byte) : lowByte (addr16 lo hi) = lo := by
  apply BitVec.eq_of_toNat_eq
  simp only [addr16, lowByte, BitVec.toNat_ofNat]
  have := lo.isLt
  have := hi.isLt
  omega

@[simp] theorem highByte_addr16 (lo hi : Byte) : highByte (addr16 lo hi) = hi := by
  apply BitVec.eq_of_toNat_eq
  simp only [addr16, highByte, BitVec.toNat_ofNat]
  have := lo.isLt
  have := hi.isLt
  omega

/-- A format without operand bytes looks at the opcode byte alone. -/
theorem decodeBytes_of_count_zero {m : OpcodeMap} {op : Byte} (h : operandCount m op = 0) (b1 b2 : Byte) :
    decodeBytes m op 0#8 0#8 = decodeBytes m op b1 b2 := by
  unfold operandCount at h
  unfold decodeBytes
  cases hk : m.lookup op with
  | none => rfl
  | some k => rw [hk] at h; cases k <;> simp_all [Mnemonic.operandBytes]

/-- A format with one operand byte looks at that one. -/
theorem decodeBytes_of_count_one {m : OpcodeMap} {op : Byte} (h : operandCount m op = 1) (b1 b2 : Byte) :
    decodeBytes m op b1 0#8 = decodeBytes m op b1 b2 := by
  unfold operandCount at h
  unfold decodeBytes
  cases hk : m.lookup op with
  | none => rfl
  | some k => rw [hk] at h; cases k <;> simp_all [Mnemonic.operandBytes]

/-- A format has at most two operand bytes (R58). -/
theorem operandCount_le (m : OpcodeMap) (op : Byte) : operandCount m op ≤ 2 := by
  unfold operandCount
  cases m.lookup op with
  | none => exact Nat.zero_le 2
  | some k => cases k <;> decide

/-- A decoded instruction is as long as its opcode byte says (R59). -/
theorem length_decodeBytes (m : OpcodeMap) (op b1 b2 : Byte) :
    (decodeBytes m op b1 b2).length = 1 + operandCount m op := by
  unfold decodeBytes operandCount
  cases m.lookup op with
  | none => rfl
  | some k => cases k <;> rfl

end Sys2Proof
end

