-- ==== Sys2Proof/Laws/State.lean ====
section
/-! SUPPORT. What each state update leaves in each field, so that no proof unfolds a record update. -/

namespace Sys2Proof.Machine

theorem State.reg_setReg (s : State) (r q : Reg) (v : Byte) :
    (s.setReg r v).reg q = if q = r then v else s.reg q := by
  cases r <;> cases q <;> rfl

@[simp] theorem State.reg_setReg_same (s : State) (r : Reg) (v : Byte) : (s.setReg r v).reg r = v := by
  simp [State.reg_setReg]

theorem State.reg_setReg_other (s : State) {r q : Reg} (v : Byte) (h : q ≠ r) : (s.setReg r v).reg q = s.reg q := by
  simp [State.reg_setReg, h]

@[simp] theorem State.setReg_flags (s : State) (r : Reg) (v : Byte) : (s.setReg r v).flags = s.flags := by cases r <;> rfl
@[simp] theorem State.setReg_pc (s : State) (r : Reg) (v : Byte) : (s.setReg r v).pc = s.pc := by cases r <;> rfl
@[simp] theorem State.setReg_mem (s : State) (r : Reg) (v : Byte) : (s.setReg r v).mem = s.mem := by cases r <;> rfl
@[simp] theorem State.setReg_halted (s : State) (r : Reg) (v : Byte) : (s.setReg r v).halted = s.halted := by cases r <;> rfl
@[simp] theorem State.setReg_limitWarning (s : State) (r : Reg) (v : Byte) :
    (s.setReg r v).limitWarning = s.limitWarning := by cases r <;> rfl
@[simp] theorem State.setReg_sp (s : State) (r : Reg) (v : Byte) : (s.setReg r v).sp = s.sp := by cases r <;> rfl
@[simp] theorem State.setReg_stack (s : State) (r : Reg) (v : Byte) : (s.setReg r v).stack = s.stack := by cases r <;> rfl
@[simp] theorem State.setReg_cycles (s : State) (r : Reg) (v : Byte) : (s.setReg r v).cycles = s.cycles := by cases r <;> rfl

@[simp] theorem State.setFlags_regs (s : State) (f : Flags) : (s.setFlags f).regs = s.regs := rfl
@[simp] theorem State.setFlags_flags (s : State) (f : Flags) : (s.setFlags f).flags = f := rfl
@[simp] theorem State.setFlags_pc (s : State) (f : Flags) : (s.setFlags f).pc = s.pc := rfl
@[simp] theorem State.setFlags_mem (s : State) (f : Flags) : (s.setFlags f).mem = s.mem := rfl
@[simp] theorem State.setFlags_halted (s : State) (f : Flags) : (s.setFlags f).halted = s.halted := rfl
@[simp] theorem State.setFlags_limitWarning (s : State) (f : Flags) : (s.setFlags f).limitWarning = s.limitWarning := rfl
@[simp] theorem State.setFlags_sp (s : State) (f : Flags) : (s.setFlags f).sp = s.sp := rfl
@[simp] theorem State.setFlags_stack (s : State) (f : Flags) : (s.setFlags f).stack = s.stack := rfl
@[simp] theorem State.setFlags_cycles (s : State) (f : Flags) : (s.setFlags f).cycles = s.cycles := rfl

@[simp] theorem State.setPc_regs (s : State) (p : Addr) : (s.setPc p).regs = s.regs := rfl
@[simp] theorem State.setPc_flags (s : State) (p : Addr) : (s.setPc p).flags = s.flags := rfl
@[simp] theorem State.setPc_pc (s : State) (p : Addr) : (s.setPc p).pc = p := rfl
@[simp] theorem State.setPc_mem (s : State) (p : Addr) : (s.setPc p).mem = s.mem := rfl
@[simp] theorem State.setPc_halted (s : State) (p : Addr) : (s.setPc p).halted = s.halted := rfl
@[simp] theorem State.setPc_limitWarning (s : State) (p : Addr) : (s.setPc p).limitWarning = s.limitWarning := rfl
@[simp] theorem State.setPc_sp (s : State) (p : Addr) : (s.setPc p).sp = s.sp := rfl
@[simp] theorem State.setPc_stack (s : State) (p : Addr) : (s.setPc p).stack = s.stack := rfl
@[simp] theorem State.setPc_cycles (s : State) (p : Addr) : (s.setPc p).cycles = s.cycles := rfl
@[simp] theorem State.setPc_setPc (s : State) (p q : Addr) : (s.setPc p).setPc q = s.setPc q := rfl

@[simp] theorem State.memWrite_regs (s : State) (a : Nat) (v : Byte) : (s.memWrite a v).regs = s.regs := rfl
@[simp] theorem State.memWrite_flags (s : State) (a : Nat) (v : Byte) : (s.memWrite a v).flags = s.flags := rfl
@[simp] theorem State.memWrite_pc (s : State) (a : Nat) (v : Byte) : (s.memWrite a v).pc = s.pc := rfl
@[simp] theorem State.memWrite_mem (s : State) (a : Nat) (v : Byte) : (s.memWrite a v).mem = Memory.write s.mem a v := rfl
@[simp] theorem State.memWrite_halted (s : State) (a : Nat) (v : Byte) : (s.memWrite a v).halted = s.halted := rfl
@[simp] theorem State.memWrite_limitWarning (s : State) (a : Nat) (v : Byte) :
    (s.memWrite a v).limitWarning = s.limitWarning := rfl
@[simp] theorem State.memWrite_sp (s : State) (a : Nat) (v : Byte) : (s.memWrite a v).sp = s.sp := rfl
@[simp] theorem State.memWrite_stack (s : State) (a : Nat) (v : Byte) : (s.memWrite a v).stack = s.stack := rfl
@[simp] theorem State.memWrite_cycles (s : State) (a : Nat) (v : Byte) : (s.memWrite a v).cycles = s.cycles := rfl

@[simp] theorem State.countCycle_regs (s : State) : s.countCycle.regs = s.regs := rfl
@[simp] theorem State.countCycle_flags (s : State) : s.countCycle.flags = s.flags := rfl
@[simp] theorem State.countCycle_pc (s : State) : s.countCycle.pc = s.pc := rfl
@[simp] theorem State.countCycle_mem (s : State) : s.countCycle.mem = s.mem := rfl
@[simp] theorem State.countCycle_halted (s : State) : s.countCycle.halted = s.halted := rfl
@[simp] theorem State.countCycle_limitWarning (s : State) : s.countCycle.limitWarning = s.limitWarning := rfl
@[simp] theorem State.countCycle_sp (s : State) : s.countCycle.sp = s.sp := rfl
@[simp] theorem State.countCycle_stack (s : State) : s.countCycle.stack = s.stack := rfl
@[simp] theorem State.countCycle_cycles (s : State) : s.countCycle.cycles = s.cycles + 1 := rfl

@[simp] theorem State.halt_regs (s : State) : s.halt.regs = s.regs := rfl
@[simp] theorem State.halt_flags (s : State) : s.halt.flags = s.flags := rfl
@[simp] theorem State.halt_pc (s : State) : s.halt.pc = s.pc := rfl
@[simp] theorem State.halt_mem (s : State) : s.halt.mem = s.mem := rfl
@[simp] theorem State.halt_halted (s : State) : s.halt.halted = true := rfl
@[simp] theorem State.halt_limitWarning (s : State) : s.halt.limitWarning = s.limitWarning := rfl
@[simp] theorem State.halt_sp (s : State) : s.halt.sp = s.sp := rfl
@[simp] theorem State.halt_stack (s : State) : s.halt.stack = s.stack := rfl
@[simp] theorem State.halt_cycles (s : State) : s.halt.cycles = s.cycles := rfl

@[simp] theorem State.exhaust_regs (s : State) : s.exhaust.regs = s.regs := rfl
@[simp] theorem State.exhaust_flags (s : State) : s.exhaust.flags = s.flags := rfl
@[simp] theorem State.exhaust_pc (s : State) : s.exhaust.pc = s.pc := rfl
@[simp] theorem State.exhaust_mem (s : State) : s.exhaust.mem = s.mem := rfl
@[simp] theorem State.exhaust_halted (s : State) : s.exhaust.halted = true := rfl
@[simp] theorem State.exhaust_limitWarning (s : State) : s.exhaust.limitWarning = true := rfl
@[simp] theorem State.exhaust_sp (s : State) : s.exhaust.sp = s.sp := rfl
@[simp] theorem State.exhaust_stack (s : State) : s.exhaust.stack = s.stack := rfl
@[simp] theorem State.exhaust_cycles (s : State) : s.exhaust.cycles = s.cycles := rfl

/-- Two states with the same fields are the same state. -/
@[ext] theorem State.ext_fields {s t : State} (regs : s.regs = t.regs) (flags : s.flags = t.flags) (pc : s.pc = t.pc)
    (mem : s.mem = t.mem) (halted : s.halted = t.halted) (limitWarning : s.limitWarning = t.limitWarning)
    (sp : s.sp = t.sp) (stack : s.stack = t.stack) (cycles : s.cycles = t.cycles) : s = t := by
  cases s; cases t; simp_all

end Sys2Proof.Machine
end

