-- ==== Sys2Proof/Laws/Memory.lean ====
section
/-! SUPPORT. The memory laws: what a read gives after a write, that a write keeps the canonical form, and that canonical
memories with the same reads are equal. -/

namespace Sys2Proof.Machine

theorem Cells.get_erase (k j : Nat) (cells : Cells) :
    Cells.get j (Cells.erase k cells) = if j = k then unlistedByte else Cells.get j cells := by
  induction cells with
  | nil => simp [Cells.erase, Cells.get]
  | cons c rest ih =>
    obtain ⟨i, w⟩ := c
    by_cases hik : i = k
    · subst hik
      by_cases hj : j = i
      · subst hj
        simpa [Cells.erase] using ih
      · simp [Cells.erase, Cells.get, ih, hj, Ne.symm hj]
    · by_cases hij : i = j
      · subst hij
        simp [Cells.erase, Cells.get, hik]
      · simp [Cells.erase, Cells.get, hik, hij, ih]

theorem Cells.get_insert_other {k j : Nat} (h : j ≠ k) (v : Byte) (cells : Cells) :
    Cells.get j (Cells.insert k v cells) = Cells.get j cells := by
  induction cells with
  | nil => simp [Cells.insert, Cells.get, h.symm]
  | cons c rest ih =>
    obtain ⟨i, w⟩ := c
    by_cases hlt : k < i
    · simp [Cells.insert, Cells.get, hlt, h.symm]
    · simp [Cells.insert, Cells.get, hlt, ih]

/-- An inserted entry is found where no earlier entry has its key. -/
theorem Cells.get_insert_same_erase (k : Nat) (v : Byte) (cells : Cells) :
    Cells.get k (Cells.insert k v (Cells.erase k cells)) = v := by
  induction cells with
  | nil => simp [Cells.erase, Cells.insert, Cells.get]
  | cons c rest ih =>
    obtain ⟨i, w⟩ := c
    by_cases hik : i = k
    · simpa [Cells.erase, hik] using ih
    · by_cases hlt : k < i
      · simp [Cells.erase, Cells.insert, Cells.get, hik, hlt]
      · simpa [Cells.erase, Cells.insert, Cells.get, hik, hlt] using ih

/-- A key's value after a set, for every list of cells. -/
theorem Cells.get_set (k j : Nat) (v : Byte) (cells : Cells) :
    Cells.get j (Cells.set k v cells) = if j = k then v else Cells.get j cells := by
  unfold Cells.set
  by_cases hv : v = unlistedByte
  · simp [hv, Cells.get_erase]
  · by_cases hj : j = k
    · subst hj
      simp [hv, Cells.get_insert_same_erase]
    · simp [hv, Cells.get_insert_other hj, Cells.get_erase, hj]

theorem Cells.wfFrom_cons {bound low k : Nat} {v : Byte} {rest : Cells} :
    Cells.wfFrom bound low ((k, v) :: rest) = true ↔
      low ≤ k ∧ k < bound ∧ v ≠ unlistedByte ∧ Cells.wfFrom bound (k + 1) rest = true := by
  simp [Cells.wfFrom, and_assoc]

theorem Cells.wfFrom_mono {bound low low' : Nat} (h : low' ≤ low) {cells : Cells}
    (hw : Cells.wfFrom bound low cells = true) : Cells.wfFrom bound low' cells = true := by
  cases cells with
  | nil => rfl
  | cons c rest =>
    obtain ⟨k, v⟩ := c
    rw [Cells.wfFrom_cons] at hw ⊢
    exact ⟨h.trans hw.1, hw.2⟩

theorem Cells.wfFrom_erase (k : Nat) {bound low : Nat} {cells : Cells} (hw : Cells.wfFrom bound low cells = true) :
    Cells.wfFrom bound low (Cells.erase k cells) = true := by
  induction cells generalizing low with
  | nil => rfl
  | cons c rest ih =>
    obtain ⟨j, v⟩ := c
    rw [Cells.wfFrom_cons] at hw
    by_cases hjk : j = k
    · have := ih hw.2.2.2
      simpa [Cells.erase, hjk] using Cells.wfFrom_mono (by omega) this
    · simp only [Cells.erase, hjk, if_false, Cells.wfFrom_cons]
      exact ⟨hw.1, hw.2.1, hw.2.2.1, ih hw.2.2.2⟩

/-- Inserting keeps the canonical form where the key has no entry. -/
theorem Cells.wfFrom_insert_erase {bound k : Nat} {v : Byte} (hk : k < bound) (hv : v ≠ unlistedByte) {low : Nat}
    (hlow : low ≤ k) {cells : Cells} (hw : Cells.wfFrom bound low cells = true) :
    Cells.wfFrom bound low (Cells.insert k v (Cells.erase k cells)) = true := by
  induction cells generalizing low with
  | nil => simp [Cells.erase, Cells.insert, Cells.wfFrom, hk, hv, hlow]
  | cons c rest ih =>
    obtain ⟨j, w⟩ := c
    rw [Cells.wfFrom_cons] at hw
    by_cases hjk : j = k
    · have := ih hlow (Cells.wfFrom_mono (by omega) hw.2.2.2)
      simpa [Cells.erase, hjk] using this
    · by_cases hlt : k < j
      · simp only [Cells.erase, hjk, if_false, Cells.insert, hlt, if_true, Cells.wfFrom_cons]
        exact ⟨hlow, hk, hv, hlt, hw.2.1, hw.2.2.1, Cells.wfFrom_erase k hw.2.2.2⟩
      · simp only [Cells.erase, hjk, if_false, Cells.insert, hlt, Cells.wfFrom_cons]
        exact ⟨hw.1, hw.2.1, hw.2.2.1, ih (by omega) hw.2.2.2⟩

/-- A set at a key below the bound keeps the canonical form. -/
theorem Cells.wfFrom_set {bound k : Nat} (hk : k < bound) (v : Byte) {cells : Cells}
    (hw : Cells.wfFrom bound 0 cells = true) : Cells.wfFrom bound 0 (Cells.set k v cells) = true := by
  unfold Cells.set
  by_cases hv : v = unlistedByte
  · simpa [hv] using Cells.wfFrom_erase k hw
  · simpa [hv] using Cells.wfFrom_insert_erase hk hv (Nat.zero_le k) hw

theorem wrapA_lt (n : Nat) : wrapA n < memSize := Nat.mod_lt n (by decide)

@[simp] theorem wrapA_wrapA (n : Nat) : wrapA (wrapA n) = wrapA n := Nat.mod_mod n memSize

/-- What one byte reads as after a write of one byte. -/
theorem Memory.read_write (mem : Cells) (a b : Nat) (v : Byte) :
    Memory.read (Memory.write mem a v) b = if wrapA b = wrapA a then v else Memory.read mem b :=
  Cells.get_set (wrapA a) (wrapA b) v mem

@[simp] theorem Memory.read_write_same (mem : Cells) (a : Nat) (v : Byte) :
    Memory.read (Memory.write mem a v) a = v := by
  simp [Memory.read_write]

theorem Memory.read_write_other (mem : Cells) {a b : Nat} (h : wrapA b ≠ wrapA a) (v : Byte) :
    Memory.read (Memory.write mem a v) b = Memory.read mem b := by
  simp [Memory.read_write, h]

/-- Every write keeps the canonical form. -/
theorem Memory.wf_write {mem : Cells} (h : Memory.wf mem = true) (a : Nat) (v : Byte) :
    Memory.wf (Memory.write mem a v) = true :=
  Cells.wfFrom_set (wrapA_lt a) v h

theorem Memory.wf_empty : Memory.wf [] = true := rfl

theorem Memory.read_empty (a : Nat) : Memory.read [] a = unlistedByte := rfl

/-- Keys below the first possible one read as unlisted. -/
theorem Cells.get_below {bound low k : Nat} (hk : k < low) {cells : Cells} (hw : Cells.wfFrom bound low cells = true) :
    Cells.get k cells = unlistedByte := by
  induction cells generalizing low with
  | nil => rfl
  | cons c rest ih =>
    obtain ⟨j, v⟩ := c
    rw [Cells.wfFrom_cons] at hw
    have hjk : j ≠ k := by omega
    simpa [Cells.get, hjk] using ih (by omega) hw.2.2.2

/-- In canonical form, equal reads at every key make equal lists. -/
theorem Cells.eq_of_get_eq {bound low : Nat} {xs ys : Cells} (hx : Cells.wfFrom bound low xs = true)
    (hy : Cells.wfFrom bound low ys = true) (h : ∀ k, Cells.get k xs = Cells.get k ys) : xs = ys := by
  induction xs generalizing low ys with
  | nil =>
    cases ys with
    | nil => rfl
    | cons c rest =>
      obtain ⟨k, v⟩ := c
      rw [Cells.wfFrom_cons] at hy
      exact absurd (h k).symm (by simpa [Cells.get] using hy.2.2.1)
  | cons c rest ih =>
    obtain ⟨k, v⟩ := c
    rw [Cells.wfFrom_cons] at hx
    cases ys with
    | nil => exact absurd (h k) (by simpa [Cells.get] using hx.2.2.1)
    | cons c' rest' =>
      obtain ⟨k', v'⟩ := c'
      rw [Cells.wfFrom_cons] at hy
      have hkk : k = k' := by
        rcases Nat.lt_trichotomy k k' with hlt | heq | hgt
        · have h1 := h k
          rw [Cells.get_below (low := k') hlt (Cells.wfFrom_cons.2 ⟨le_refl k', hy.2⟩)] at h1
          exact absurd h1 (by simpa [Cells.get] using hx.2.2.1)
        · exact heq
        · have h1 := h k'
          rw [Cells.get_below (low := k) hgt (Cells.wfFrom_cons.2 ⟨le_refl k, hx.2⟩)] at h1
          exact absurd h1.symm (by simpa [Cells.get] using hy.2.2.1)
      subst hkk
      have hvv : v = v' := by simpa [Cells.get] using h k
      subst hvv
      congr 1
      refine ih hx.2.2.2 hy.2.2.2 (fun j => ?_)
      by_cases hj : k = j
      · subst hj
        rw [Cells.get_below (Nat.lt_succ_self k) hx.2.2.2, Cells.get_below (Nat.lt_succ_self k) hy.2.2.2]
      · simpa [Cells.get, hj] using h j

end Sys2Proof.Machine
end

