-- ==== Sys2Proof/Laws/Exec.lean ====
section
/-! SUPPORT. What each meaning answers, as equations; and what every meaning leaves alone. -/

namespace Sys2Proof.Machine

@[simp] theorem exec_hlt (s : State) : exec .hlt s = .next s.halt := rfl
@[simp] theorem exec_lai (imm : Byte) (s : State) : exec (.lai imm) s = .next (s.setReg .a imm) := rfl
@[simp] theorem exec_lbi (imm : Byte) (s : State) : exec (.lbi imm) s = .next (s.setReg .b imm) := rfl
@[simp] theorem exec_lci (imm : Byte) (s : State) : exec (.lci imm) s = .next (s.setReg .c imm) := rfl
@[simp] theorem exec_lab (s : State) : exec .lab s = .next (s.setReg .a (s.reg .b)) := rfl
@[simp] theorem exec_lba (s : State) : exec .lba s = .next (s.setReg .b (s.reg .a)) := rfl
@[simp] theorem exec_adb (s : State) :
    exec .adb s = .next ((s.setReg .a (BitVec.ofNat 8 (adbSum (s.reg .a) (s.reg .b)))).setFlags
      (flagsOf (adbSum (s.reg .a) (s.reg .b)) (BitVec.ofNat 8 (adbSum (s.reg .a) (s.reg .b))))) := rfl
@[simp] theorem exec_lam (s : State) : exec .lam s = .next (s.setReg .a (s.memRead s.hl)) := rfl
@[simp] theorem exec_lma (s : State) : exec .lma s = .next (s.memWrite s.hl (s.reg .a)) := rfl
@[simp] theorem exec_jmp (target : Addr) (s : State) : exec (.jmp target) s = .next (s.setPc target) := rfl
@[simp] theorem exec_unassigned (op : Byte) (s : State) : exec (.unassigned op) s = .next s := rfl

/-- The fields no meaning writes: SP, the stack, the cycle count, the warning. -/
theorem exec_frame_undriven {i : Instr} {s t : State} (h : exec i s = .next t) :
    t.sp = s.sp ∧ t.stack = s.stack ∧ t.cycles = s.cycles ∧ t.limitWarning = s.limitWarning := by
  cases i <;> simp at h <;> subst h <;> simp

/-- The registers no meaning writes: D, E, H, L. -/
theorem exec_frame_undriven_regs {i : Instr} {s t : State} (h : exec i s = .next t) :
    t.regs.d = s.regs.d ∧ t.regs.e = s.regs.e ∧ t.regs.h = s.regs.h ∧ t.regs.l = s.regs.l := by
  cases i <;> simp at h <;> subst h <;> exact ⟨rfl, rfl, rfl, rfl⟩

/-- A meaning leaves memory as it was, or writes A at HL. -/
theorem exec_mem_cases {i : Instr} {s t : State} (h : exec i s = .next t) :
    t.mem = s.mem ∨ (i = .lma ∧ t.mem = Memory.write s.mem s.hl (s.reg .a)) := by
  cases i <;> simp at h <;> subst h <;> simp

/-- A meaning leaves `halted` as it was, or is HLT's. -/
theorem exec_halted_cases {i : Instr} {s t : State} (h : exec i s = .next t) :
    t.halted = s.halted ∨ (i = .hlt ∧ t.halted = true) := by
  cases i <;> simp at h <;> subst h <;> simp

/-- No meaning stops. -/
theorem exec_answers_next (i : Instr) (s : State) : ∃ t, exec i s = .next t := by
  cases i <;> simp

end Sys2Proof.Machine
end

