-- ==== Sys2Proof/Laws/Fetch.lean ====
section
/-! SUPPORT. What fetching answers: the instruction of the three bytes at the program counter, and the program counter
moved past as many of them as the opcode byte says. -/

namespace Sys2Proof.Machine

@[simp] theorem memRead_setPc (s : State) (p : Addr) (a : Nat) : (s.setPc p).memRead a = s.memRead a := rfl

theorem memRead_wrapA (s : State) (a : Nat) : s.memRead (wrapA a) = s.memRead a := by
  simp [State.memRead, Memory.read]

theorem toNat_pcSucc (pc : Addr) : (pcSucc pc).toNat = wrapA (pc.toNat + 1) := by
  have h := wrapA_lt (pc.toNat + 1)
  rw [pcSucc, BitVec.toNat_ofNat]
  exact Nat.mod_eq_of_lt (h.trans (by decide))

theorem wrapA_wrapA_add (n k : Nat) : wrapA (wrapA n + k) = wrapA (n + k) := by
  simp [wrapA, memSize, Nat.mod_add_mod]

/-- R24: the program counter moved past `n` bytes, each fetch one further and reduced. -/
def pcAfter (pc : Addr) (n : Nat) : Addr := BitVec.ofNat 16 (wrapA (pc.toNat + n))

theorem toNat_pcAfter (pc : Addr) (n : Nat) : (pcAfter pc n).toNat = wrapA (pc.toNat + n) := by
  rw [pcAfter, BitVec.toNat_ofNat]
  exact Nat.mod_eq_of_lt ((wrapA_lt _).trans (by decide))

theorem pcSucc_eq_pcAfter (pc : Addr) : pcSucc pc = pcAfter pc 1 := rfl

theorem pcSucc_pcAfter (pc : Addr) (n : Nat) : pcSucc (pcAfter pc n) = pcAfter pc (n + 1) := by
  unfold pcSucc
  rw [toNat_pcAfter, wrapA_wrapA_add]
  rfl

/-- Fetching an instruction, said with plain reads at the program counter. -/
theorem fetchInstr_eq (m : OpcodeMap) (s : State) :
    fetchInstr m s =
      (decodeBytes m (s.memRead s.pc.toNat) (s.memRead (s.pc.toNat + 1)) (s.memRead (s.pc.toNat + 2)),
        s.setPc (pcAfter s.pc (1 + operandCount m (s.memRead s.pc.toNat)))) := by
  have hle := operandCount_le m (s.memRead s.pc.toNat)
  have h1 : s.memRead (pcSucc s.pc).toNat = s.memRead (s.pc.toNat + 1) := by rw [toNat_pcSucc, memRead_wrapA]
  have h2 : s.memRead (pcAfter s.pc 2).toNat = s.memRead (s.pc.toNat + 2) := by rw [toNat_pcAfter, memRead_wrapA]
  have hs : pcSucc (pcSucc s.pc) = pcAfter s.pc 2 := pcSucc_pcAfter s.pc 1
  have hc : operandCount m (s.memRead s.pc.toNat) = 0 ∨ operandCount m (s.memRead s.pc.toNat) = 1 ∨
      operandCount m (s.memRead s.pc.toNat) = 2 := by omega
  rcases hc with h0 | h0 | h0
  · simp only [fetchInstr, fetch8, h0]
    rw [decodeBytes_of_count_zero h0]
    rfl
  · simp only [fetchInstr, fetch8, h0, State.setPc_pc, memRead_setPc, State.setPc_setPc, h1, hs]
    rw [decodeBytes_of_count_one h0]
  · simp only [fetchInstr, fetch8, h0, State.setPc_pc, memRead_setPc, State.setPc_setPc, h1, hs, h2, pcSucc_pcAfter]

end Sys2Proof.Machine
end

