-- ==== Sys2Proof/Laws/Engine.lean ====
section
/-! SUPPORT. What an iteration and a step answer, said once: the cases from which invariants are derived. -/

namespace Sys2Proof.Machine

/-- An iteration is the meaning of the fetched instruction, then the count. -/
theorem iteration_cases {cfg : Config} {s t : State} (h : iteration cfg s = .next t) :
    ∃ u, exec (fetchInstr cfg.opcodes s).1 (fetchInstr cfg.opcodes s).2 = .next u ∧ t = u.countCycle := by
  simp only [iteration] at h
  split at h
  · rename_i u hu
    exact ⟨u, hu, by simpa using h.symm⟩
  · simp at h
  · simp at h

/-- A meaning's answer is the iteration's, counted. -/
theorem iteration_of_exec {cfg : Config} {s u : State}
    (h : exec (fetchInstr cfg.opcodes s).1 (fetchInstr cfg.opcodes s).2 = .next u) :
    iteration cfg s = .next u.countCycle := by
  simp only [iteration, h]

/-- A step does nothing in a halted state, runs an iteration in an enabled one, and forces the halt in the rest. -/
theorem engineStep_cases {cfg : Config} {s t : State} (h : engineStep cfg s = .next t) :
    (s.halted = true ∧ t = s) ∨ (s.enabled cfg = true ∧ iteration cfg s = .next t) ∨
      (s.halted = false ∧ cfg.cycleLimit ≤ s.cycles ∧ t = s.exhaust) := by
  simp only [engineStep] at h
  split at h
  · rename_i hh
    exact .inl ⟨hh, by simpa using h.symm⟩
  · rename_i hh
    split at h
    · rename_i he
      exact .inr (.inl ⟨he, h⟩)
    · rename_i he
      refine .inr (.inr ⟨by simpa using hh, ?_, by simpa using h.symm⟩)
      simpa [State.enabled, hh] using he

theorem engineStep_of_halted {cfg : Config} {s : State} (h : s.halted = true) : engineStep cfg s = .next s := by
  simp [engineStep, h]

theorem engineStep_of_enabled {cfg : Config} {s : State} (h : s.enabled cfg = true) :
    engineStep cfg s = iteration cfg s := by
  have hh : s.halted = false := by simp [State.enabled] at h; exact h.1
  simp [engineStep, h, hh]

/-- What an iteration keeps whatever the instruction: the undriven state; it counts one cycle. -/
theorem iteration_frame {cfg : Config} {s t : State} (h : iteration cfg s = .next t) :
    t.sp = s.sp ∧ t.stack = s.stack ∧ t.cycles = s.cycles + 1 ∧ t.limitWarning = s.limitWarning ∧
      t.regs.d = s.regs.d ∧ t.regs.e = s.regs.e ∧ t.regs.h = s.regs.h ∧ t.regs.l = s.regs.l := by
  obtain ⟨u, hu, rfl⟩ := iteration_cases h
  have h1 := exec_frame_undriven hu
  have h2 := exec_frame_undriven_regs hu
  rw [fetchInstr_eq] at h1 h2
  simp_all

end Sys2Proof.Machine
end

