-- ==== Sys2Proof/Laws/PerInstr.lean ====
section
/-! SUPPORT. Families of statements about instructions as syntax, one lemma per constructor. -/

namespace Sys2Proof.Laws

/-- R58: an instruction's encoding has `1 + arity` bytes, whatever the opcode map. -/
def EncodedLength.Statement (i : Instr) : Prop := ∀ m : OpcodeMap, (encode m i).length = i.length

theorem EncodedLength.hlt : EncodedLength.Statement .hlt := fun _ => rfl
theorem EncodedLength.lai (imm : Byte) : EncodedLength.Statement (.lai imm) := fun _ => rfl
theorem EncodedLength.lbi (imm : Byte) : EncodedLength.Statement (.lbi imm) := fun _ => rfl
theorem EncodedLength.lci (imm : Byte) : EncodedLength.Statement (.lci imm) := fun _ => rfl
theorem EncodedLength.lab : EncodedLength.Statement .lab := fun _ => rfl
theorem EncodedLength.lba : EncodedLength.Statement .lba := fun _ => rfl
theorem EncodedLength.adb : EncodedLength.Statement .adb := fun _ => rfl
theorem EncodedLength.lam : EncodedLength.Statement .lam := fun _ => rfl
theorem EncodedLength.lma : EncodedLength.Statement .lma := fun _ => rfl
theorem EncodedLength.jmp (target : Addr) : EncodedLength.Statement (.jmp target) := fun _ => rfl
theorem EncodedLength.unassigned (op : Byte) : EncodedLength.Statement (.unassigned op) := fun _ => rfl

end Sys2Proof.Laws
end

