-- ==== Sys2Proof/Tests/Slice0.lean ====
section
/-! SUPPORT. Small tests, their expected results taken from spec/95_test_vectors.md (V1 to V11, T1 to T50) or worked out
by hand from the rule named, and one witness for the hypotheses of each statement of Obligations.lean. -/

open Sys2Proof Sys2Proof.Machine

namespace Sys2Proof.Tests

/-- The next state of a step, where there is one. -/
def after (s : State) : Option State :=
  match step s with
  | .next t => some t
  | .fault _ => none
  | .refused _ => none

/-- The reset state with bytes at an address and the program counter there. -/
def at_ (addr : Nat) (bytes : List Byte) : State := (State.reset.storeBytes addr bytes).setPc (BitVec.ofNat 16 addr)

/-- A state with the given A and B, and the bytes at address 0. -/
def withAB (a b : Byte) (bytes : List Byte) : State := ((at_ 0 bytes).setReg .a a).setReg .b b

/-- A, and the flag digits C Z S P. -/
def aAndFlags (s : State) : Byte × Flags := (s.reg .a, s.flags)

/-! ## Well-formedness smoke: an ill-formed term for each check -/

theorem test_wf_accepts_default_map : defaultOpcodeMap.wf = true := by decide
theorem test_wf_refuses_a_repeated_byte : (OpcodeMap.wf { defaultOpcodeMap with lai := 0x0E#8 }) = false := by decide
theorem test_wf_refuses_another_hlt_byte : (OpcodeMap.wf { defaultOpcodeMap with hlt := 0x02#8 }) = false := by decide
theorem test_wf_refuses_unassigned_on_an_assigned_byte :
    (Instr.unassigned 0x44#8).wf defaultOpcodeMap = false := by decide
theorem test_wf_accepts_unassigned_zero : (Instr.unassigned 0x00#8).wf defaultOpcodeMap = true := by decide

/-! ## Decoding, words from the R65 table written out -/

theorem test_decode_hlt : decode defaultOpcodeMap [0b00000001#8] = .ok (.hlt, []) := by rfl
theorem test_decode_lai : decode defaultOpcodeMap [0b00000110#8, 0b11001000#8] = .ok (.lai 200#8, []) := by rfl
theorem test_decode_lbi : decode defaultOpcodeMap [0b00001110#8, 0b00110111#8] = .ok (.lbi 55#8, []) := by rfl
theorem test_decode_lci : decode defaultOpcodeMap [0b00010110#8, 0b11111111#8] = .ok (.lci 255#8, []) := by rfl
theorem test_decode_lab : decode defaultOpcodeMap [0b11000001#8] = .ok (.lab, []) := by rfl
theorem test_decode_lba : decode defaultOpcodeMap [0b11001000#8] = .ok (.lba, []) := by rfl
theorem test_decode_adb : decode defaultOpcodeMap [0b10000001#8] = .ok (.adb, []) := by rfl
theorem test_decode_lam : decode defaultOpcodeMap [0b11000111#8] = .ok (.lam, []) := by rfl
theorem test_decode_lma : decode defaultOpcodeMap [0b11111000#8] = .ok (.lma, []) := by rfl
theorem test_decode_jmp :
    decode defaultOpcodeMap [0b01000100#8, 0b00110100#8, 0b00010010#8] = .ok (.jmp 0x1234#16, []) := by rfl
theorem test_decode_unassigned : decode defaultOpcodeMap [0b11111111#8] = .ok (.unassigned 0xFF#8, []) := by rfl
theorem test_decode_empty : decode defaultOpcodeMap [] = .error .noOpcode := by rfl
theorem test_decode_short_jmp : decode defaultOpcodeMap [0x44#8, 0x34#8] = .error .missingOperands := by rfl

/-- The JMP word as spec/opcode_table.json numbers bits: low operand byte at bits 15..8. -/
theorem test_table_word_jmp : decodeTableWord 24 0x123444 = some (.jmp 0x1234#16) := by decide
/-- A table row that gives the opcode byte alone: the operand bytes are zeros. -/
theorem test_table_word_lai_without_operand : decodeTableWord 8 0x06 = some (.lai 0#8) := by decide
/-- The placed word runs in the next step, here from reset. -/
theorem test_fetch_word_runs :
    (after (State.reset.withFetchWord 16 0xC806)).map (fun t => (t.reg .a, t.pc)) = some (200#8, 2#16) := by decide

/-! ## One step each, from spec/95_test_vectors.md -/

/-- V1, T8: HLT from reset. -/
theorem test_hlt : (after (at_ 0 [0x01])).map (fun t => (t.halted, t.pc, t.cycles, t.haltReason, t.flags)) =
    some (true, 1#16, 1, some .hlt, ⟨false, true, false, true⟩) := by decide
/-- T11: LAI 255 sets no flag. -/
theorem test_lai_sets_no_flag : (after (at_ 0 [0x06, 0xFF])).map aAndFlags = some (255#8, ⟨false, true, false, true⟩) := by
  decide
/-- T14: the operand across the wrap from 16383 to 0. -/
theorem test_lai_across_the_wrap :
    (after (at_ 16383 [0x06, 0x2A])).map (fun t => (t.reg .a, t.pc)) = some (42#8, 1#16) := by decide
/-- T16: LBI leaves A. -/
theorem test_lbi : (after (at_ 0 [0x0E, 0x37])).map (fun t => (t.reg .a, t.reg .b)) = some (0#8, 55#8) := by decide
/-- T17: LCI leaves A and B. -/
theorem test_lci : (after (at_ 0 [0x16, 0xFF])).map (fun t => t.regs) = some ⟨0, 0, 255, 0, 0, 0, 0⟩ := by decide
/-- T18: LAB copies B to A. -/
theorem test_lab : (after (withAB 7 200 [0xC1])).map (fun t => (t.reg .a, t.reg .b)) = some (200#8, 200#8) := by decide
/-- T19: LBA copies A to B. -/
theorem test_lba : (after (withAB 4 10 [0xC8])).map (fun t => (t.reg .a, t.reg .b)) = some (4#8, 4#8) := by decide
/-- T26: 255 + 255 = 510, seven ones. -/
theorem test_adb_largest_sum : (after (withAB 255 255 [0x81])).map aAndFlags = some (254#8, ⟨true, false, true, false⟩) := by
  decide
/-- T24: 128 + 128 = 256, carry and zero together. -/
theorem test_adb_carry_and_zero : (after (withAB 128 128 [0x81])).map aAndFlags = some (0#8, ⟨true, true, false, true⟩) := by
  decide
/-- T33: LAM reads its own opcode at address 0. -/
theorem test_lam : (after (at_ 0 [0xC7, 0x01])).map (fun t => (t.reg .a, t.pc)) = some (199#8, 1#16) := by decide
/-- T36, T37: bits 7:6 of H are ignored. -/
theorem test_hl_ignores_high_bits_of_h :
    (((State.reset.setReg .h 0xFF).setReg .l 0x10).hl, (State.reset.setReg .h 0x40).hl) = (16144, 0) := by decide
/-- T34, the byte at address 0 overwritten by LMA, which stands at address 2. -/
theorem test_lma : (after (((State.reset.storeBytes 0 [0x06, 0x01, 0xF8]).setPc 2).setReg .a 1)).map
    (fun t => (t.mem, t.pc)) = some ([(0, 1#8), (1, 1#8), (2, 0xF8#8)], 3#16) := by decide
/-- Storing the value of unwritten memory takes the entry out, so that equal memories are equal data (R35). -/
theorem test_lma_of_zero : (after (((State.reset.storeBytes 0 [0x06, 0x01, 0xF8]).setPc 2).setReg .a 0)).map
    (fun t => t.mem) = some [(1, 1#8), (2, 0xF8#8)] := by decide
/-- T39: JMP 16384 is held unreduced. -/
theorem test_jmp_unreduced : (after (at_ 0 [0x44, 0x00, 0x40])).map (fun t => t.pc) = some 16384#16 := by decide
/-- T42: the operand of JMP across the wrap. -/
theorem test_jmp_across_the_wrap : (after (at_ 16382 [0x44, 0x05, 0x00])).map (fun t => t.pc) = some 5#16 := by decide
/-- T2: a no-op at 16383 wraps pc to 0. -/
theorem test_unassigned_wraps : (after (at_ 16383 [0xFF])).map (fun t => (t.pc, t.cycles, t.regs)) =
    some (0#16, 1, State.reset.regs) := by decide
/-- T1: 0x00 is a no-op. -/
theorem test_unassigned_zero : (after (at_ 10 [0x00])).map (fun t => (t.pc, t.cycles)) = some (11#16, 1) := by decide

/-- T4, T5: the budget spent, the halt is forced with the warning; T3: HLT in the last iteration wins. -/
def reasonOfRun (limit : Nat) (img : List Int) : Option (Option HaltReason × Addr × Nat) :=
  match run ⟨defaultOpcodeMap, limit⟩ img with
  | .next t => some (t.haltReason, t.pc, t.cycles)
  | .fault _ => none
  | .refused _ => none

theorem test_run_exhausted : reasonOfRun 1 [0, 1] = some (some .cycleLimit, 1#16, 1) := by decide
theorem test_run_limit_zero : reasonOfRun 0 [1] = some (some .cycleLimit, 0#16, 0) := by decide
theorem test_run_hlt_in_last_iteration : reasonOfRun 2 [0, 1] = some (some .hlt, 2#16, 2) := by decide

/-! ## The assembler, from spec/95_test_vectors.md section 2.8 -/

/-- The image, where the text assembles. -/
def imageOf (text : List Char) : Option (List Int) := (assemble defaultOpcodeMap text).toOption

/-- The error, where it does not. -/
def errorOf (text : List Char) : Option AssemblyError :=
  match assemble defaultOpcodeMap text with
  | .ok _ => none
  | .error e => some e

/-- T43: lower case, and a comment. -/
theorem test_assemble_lower_case_and_comment :
    imageOf ['l', 'a', 'i', ' ', '5', ' ', ';', ' ', 'f', 'i', 'v', 'e'] = some [6, 5] := by decide
/-- T45: JMP -1. -/
theorem test_assemble_negative_target : imageOf ['J', 'M', 'P', ' ', '-', '1'] = some [0x44, 0xFF, 0xFF] := by decide
/-- T44: JMP 70000. -/
theorem test_assemble_wide_target : imageOf ['J', 'M', 'P', ' ', '7', '0', '0', '0', '0'] = some [0x44, 0x70, 0x11] := by
  decide
/-- T47: the blank line counts. -/
theorem test_assemble_unknown_mnemonic :
    errorOf ['\n', 'F', 'O', 'O'] = some ⟨2, ['F', 'O', 'O'], .unknownMnemonic⟩ := by decide
/-- T46: HLT 5. -/
theorem test_assemble_operand_count : errorOf ['H', 'L', 'T', ' ', '5'] = some ⟨1, ['H', 'L', 'T'], .operandCount 0 1⟩ := by
  decide
/-- T48: LAI x. -/
theorem test_assemble_bad_operand : errorOf ['L', 'A', 'I', ' ', 'x'] = some ⟨1, ['L', 'A', 'I'], .badOperand ['x']⟩ := by
  decide
/-- T12, T13: out-of-range entries reduced at the load. -/
theorem test_load_reduces_entries : (initialState [6, 300, 6, -1]).mem = [(0, 6#8), (1, 44#8), (2, 6#8), (3, 255#8)] := by
  decide
/-- R129: the window's bounds and its 274 addresses. -/
theorem test_window_size : windowSize = 274 := by decide

/-! ## Witnesses: states and operands that meet the hypotheses of each statement -/

/-- A state with every field away from reset and LMA, ADB, LAI 7 at addresses 258, 259, 260. -/
def demo : State where
  regs := ⟨250#8, 10#8, 3#8, 4#8, 5#8, 0x41#8, 2#8⟩
  flags := ⟨true, false, true, false⟩
  pc := 258#16
  mem := [(258, 0xF8#8), (259, 0x81#8), (260, 0x06#8), (261, 7#8)]
  halted := false
  limitWarning := false
  sp := 0
  stack := []
  cycles := 17

/-- A small configuration. -/
def small : Config := ⟨defaultOpcodeMap, 18⟩

theorem witness_enabled : small.opcodes.wf = true ∧ demo.halted = false ∧ demo.cycles < small.cycleLimit := by decide
theorem witness_decode_of_encode :
    defaultOpcodeMap.wf = true ∧ (Instr.jmp 0xFFFF#16).wf defaultOpcodeMap = true ∧
      (Instr.unassigned 0xFF#8).wf defaultOpcodeMap = true := by decide
theorem witness_encode_of_decode : decode defaultOpcodeMap [0x44#8, 1#8, 2#8, 3#8] = .ok (.jmp 0x0201#16, [3#8]) := by rfl
/-- Both clauses at the boundary of JMP's three bytes. -/
theorem witness_length : defaultOpcodeMap.wf = true ∧ 3 ≤ [0#8, 0#8].length + 1 ∧ [0#8].length + 1 < 3 := by decide
theorem witness_step_decodes :
    decode small.opcodes (demo.bytesAt demo.pc.toNat 3) = .ok (.lma, [0x81#8, 0x06#8]) := by rfl
theorem witness_fetch_word : decodeTableWord 8 0x44 = some (.jmp 0#16) := by decide
theorem witness_fetch_at_last_address : (State.setPc demo 16383#16).pc = 16383#16 := by decide
theorem witness_overflow : (withAB 255 1 []).regs.a.toNat + (withAB 255 1 []).regs.b.toNat > 255 := by decide

/-- The demonstration state with an opcode byte at its program counter. -/
def demoAt (op : Byte) : State := demo.memWrite 258 op

theorem witness_opcode_at_pc (op : Byte) :
    (demoAt op).memRead (demoAt op).pc.toNat = op ∧ (demoAt op).halted = false ∧
      (demoAt op).cycles < small.cycleLimit := by
  refine ⟨?_, rfl, (by decide : 17 < 18)⟩
  by_cases h : op = unlistedByte
  · subst h; decide
  · simp [demoAt, State.memRead, State.memWrite, Memory.read, Memory.write, Cells.set, h, demo, Cells.erase, Cells.insert,
      Cells.get, wrapA, memSize]
theorem witness_hlt : (demoAt small.opcodes.hlt).memRead 258 = small.opcodes.hlt := (witness_opcode_at_pc _).1
theorem witness_lai : (demoAt small.opcodes.lai).memRead 258 = small.opcodes.lai := (witness_opcode_at_pc _).1
theorem witness_lbi : (demoAt small.opcodes.lbi).memRead 258 = small.opcodes.lbi := (witness_opcode_at_pc _).1
theorem witness_lci : (demoAt small.opcodes.lci).memRead 258 = small.opcodes.lci := (witness_opcode_at_pc _).1
theorem witness_lab : (demoAt small.opcodes.lab).memRead 258 = small.opcodes.lab := (witness_opcode_at_pc _).1
theorem witness_lba : (demoAt small.opcodes.lba).memRead 258 = small.opcodes.lba := (witness_opcode_at_pc _).1
theorem witness_adb : (demoAt small.opcodes.adb).memRead 258 = small.opcodes.adb := (witness_opcode_at_pc _).1
theorem witness_lam : (demoAt small.opcodes.lam).memRead 258 = small.opcodes.lam := (witness_opcode_at_pc _).1
theorem witness_lma : (demoAt small.opcodes.lma).memRead 258 = small.opcodes.lma := (witness_opcode_at_pc _).1
theorem witness_jmp : (demoAt small.opcodes.jmp).memRead 258 = small.opcodes.jmp := (witness_opcode_at_pc _).1
theorem witness_unassigned : (demoAt 0xFF#8).memRead 258 = 0xFF#8 ∧ (0xFF#8 : Byte) ∉ small.opcodes.bytes :=
  ⟨(witness_opcode_at_pc _).1, by decide⟩
theorem witness_hl_zero : State.reset.regs.h = 0#8 ∧ State.reset.regs.l = 0#8 := by decide
theorem witness_same_low_bits_of_h : (0xC1#8 : Byte).extractLsb' 0 6 = demo.regs.h.extractLsb' 0 6 := by decide
/-- For the JMP target p with p mod 16384 = HL: 258 itself, and 258 + 16384 unreduced. -/
theorem witness_pc_at_hl :
    (258#16 : Addr).toNat % 16384 = Spec.hl demo ∧ (16642#16 : Addr).toNat % 16384 = Spec.hl demo := by decide

theorem witness_exec_next (i : Instr) : ∃ t, exec i demo = .next t := by cases i <;> exact ⟨_, rfl⟩
/-- The frame's clauses: an instruction with a destination, and the kept registers of one. -/
theorem witness_frame : Spec.destination .adb ≠ some .b ∧ Instr.lab ≠ .adb ∧ Instr.adb ≠ .hlt ∧ Instr.adb ≠ .lma ∧
    ∀ target, Instr.adb ≠ .jmp target := by
  refine ⟨by decide, by decide, by decide, by decide, fun target => by simp⟩
/-- LMA's frame at the addresses next to the stored one. -/
theorem witness_lma_frame : demo.hl = 258 ∧ 257 % 16384 ≠ 258 ∧ 259 % 16384 ≠ 258 := by decide

/-- The next state under the small configuration, where there is one. -/
def afterSmall (s : State) : Option State :=
  match engineStep small s with
  | .next t => some t
  | .fault _ => none
  | .refused _ => none

theorem witness_flags_change : (afterSmall (demoAt 0x81)).map (fun t => decide (t.flags ≠ (demoAt 0x81).flags)) = some true := by
  decide
theorem witness_a_changes : (afterSmall (demoAt 0xC1)).map (fun t => decide (t.regs.a ≠ demo.regs.a)) = some true := by decide
theorem witness_b_changes : (afterSmall (demoAt 0xC8)).map (fun t => decide (t.regs.b ≠ demo.regs.b)) = some true := by decide
theorem witness_c_changes : (afterSmall (demoAt 0x16)).map (fun t => decide (t.regs.c ≠ demo.regs.c)) = some true := by decide
theorem witness_step_next : ∃ t, engineStep small demo = .next t := ⟨_, rfl⟩
theorem witness_becomes_halted : (afterSmall (demoAt 0x01)).map (fun t => t.halted) = some true := by decide
theorem witness_halted : demo.halt.halted = true ∧ ∃ t, engineStep small demo.halt = .next t := ⟨rfl, _, rfl⟩
/-- Exhaustion at the limit, and HLT in the last allowed iteration, one apart. -/
theorem witness_exhaustion : demo.countCycle.halted = false ∧ demo.countCycle.cycles = small.cycleLimit := by decide
theorem witness_last_iteration : (demoAt 0x01).halted = false ∧ (demoAt 0x01).limitWarning = false ∧
    (demoAt 0x01).cycles + 1 = small.cycleLimit ∧ (demoAt 0x01).memRead (demoAt 0x01).pc.toNat = small.opcodes.hlt := by
  decide
/-- The count at the limit, and above it: the forced halt of both. -/
theorem witness_spent : small.cycleLimit ≤ demo.countCycle.cycles ∧ small.cycleLimit ≤ demo.countCycle.countCycle.cycles := by
  decide
theorem witness_canonical : Memory.wf demo.mem = true ∧ ∀ a : Nat, a < 16384 → Memory.read demo.mem a = Memory.read demo.mem a :=
  ⟨by decide, fun _ _ => rfl⟩
theorem witness_store_with_hl_zero : State.reset.regs.h = 0#8 ∧ State.reset.regs.l = 0#8 ∧
    (∃ t, engineStep small State.reset = .next t) ∧ 16383 % 16384 ≠ 0 := ⟨rfl, rfl, ⟨_, rfl⟩, by decide⟩
/-- The stored byte at the fetched address, the byte being no opcode (A = 250): the address reduced and unreduced. -/
theorem witness_stored_byte : (∃ t, exec .lma demo = .next t) ∧ (258#16 : Addr).toNat % 16384 = demo.hl ∧
    (16642#16 : Addr).toNat % 16384 = demo.hl ∧ demo.regs.a ∉ small.opcodes.bytes ∧ demo.halted = false ∧
    demo.cycles < small.cycleLimit := ⟨⟨_, rfl⟩, by decide, by decide, by decide, by decide, by decide⟩
theorem witness_stored_hlt : (∃ t, exec .lma (demo.setReg .a 0x01) = .next t) ∧
    (258#16 : Addr).toNat % 16384 = (demo.setReg .a 0x01).hl ∧ (demo.setReg .a 0x01).regs.a = small.opcodes.hlt ∧
    (demo.setReg .a 0x01).halted = false ∧ (demo.setReg .a 0x01).cycles < small.cycleLimit :=
  ⟨⟨_, rfl⟩, by decide, by decide, by decide, by decide⟩
/-- The load's two clauses at the boundary of the capacity: with 16385 entries the last falls on address 0, so it counts
and the first does not; with 3 entries none falls on address 3. -/
theorem witness_load_wraps : (List.replicate 16385 (9 : Int))[16384]? = some 9 ∧
    ∀ j : Nat, 16384 < j → j < (List.replicate 16385 (9 : Int)).length → j % 16384 ≠ 16384 % 16384 := by
  refine ⟨by rw [List.getElem?_replicate, if_pos (by omega)], fun j h1 h2 => ?_⟩
  rw [List.length_replicate] at h2
  omega
theorem witness_load_leaves : ∀ k : Nat, k < [(1 : Int), 2, 3].length → k % 16384 ≠ 3 % 16384 := by
  intro k hk
  simp at hk
  omega
theorem witness_reset_sound : State.reset.Sound small :=
  ⟨rfl, rfl, Nat.two_pow_pos _, by decide, by decide⟩
theorem witness_undriven : State.reset.UndrivenAtReset := ⟨rfl, rfl, rfl, rfl, rfl, rfl⟩
theorem witness_beyond_the_limit : defaultCycleLimit < 200001 := by decide
theorem witness_run : ∃ t, run ⟨defaultOpcodeMap, 2⟩ [0xF8, 1] = .next t := ⟨_, rfl⟩
theorem witness_window : (List.replicate 3822 (7 : Int)).length ≤ 3822 ∧ 0xEEE ≤ 0xEEE ∧ 0xFFF ≤ 0xFFF :=
  ⟨by rw [List.length_replicate], le_rfl, le_rfl⟩
theorem witness_assembles : assemble defaultOpcodeMap ['H', 'L', 'T', '\n'] = .ok [1] := by rfl
theorem witness_first_error : assembleLine defaultOpcodeMap 1 ['H', 'L', 'T'] = .ok [1] ∧
    assembleLine defaultOpcodeMap 2 ['F'] = .error ⟨2, ['F'], .unknownMnemonic⟩ ∧
    assemble defaultOpcodeMap ['F'] = .error ⟨1, ['F'], .unknownMnemonic⟩ := ⟨rfl, rfl, rfl⟩
/-- Every line before index 1 of a text whose first line is blank is accepted; before index 0 there is none. -/
theorem witness_accepted_before :
    Spec.AcceptedBefore defaultOpcodeMap ['\n', 'f', 'o', ' ', '1'] 1 ∧
      Spec.AcceptedBefore defaultOpcodeMap ['f', 'o', ' ', '1'] 0 := by
  refine ⟨fun j line hj hl => ?_, fun j _ hj _ => absurd hj (by omega)⟩
  obtain rfl : j = 0 := by omega
  obtain rfl : [] = line := by simpa [splitLines] using hl
  exact ⟨[], rfl⟩
theorem witness_unknown_mnemonic :
    (splitLines ['\n', 'f', 'o', ' ', '1'])[1]? = some ['f', 'o', ' ', '1'] ∧
      (splitLines ['f', 'o', ' ', '1'])[0]? = some ['f', 'o', ' ', '1'] ∧
      tokens (stripComment ['f', 'o', ' ', '1']) = [['f', 'o'], ['1']] ∧
      mnemonicOfName (upperCase ['f', 'o']) = none := by decide
/-- Each clause of the count: an IMP line with a token too many and with none, an IMM8 line with none and with its one. -/
theorem witness_operand_tokens :
    tokens (stripComment ['h', 'l', 't', ' ', '5']) = [['h', 'l', 't'], ['5']] ∧
      tokens (stripComment ['h', 'l', 't', ';', '5']) = [['h', 'l', 't']] ∧
      mnemonicOfName (upperCase ['h', 'l', 't']) = some .hlt ∧ [['5']].length ≠ Spec.operandTokens .hlt ∧
      tokens (stripComment ['L', 'A', 'I', ' ', '3', '0', '0']) = [['L', 'A', 'I'], ['3', '0', '0']] ∧
      mnemonicOfName (upperCase ['L', 'A', 'I']) = some .lai ∧ Spec.operandTokens .lai = 1 ∧
      ([] : List (List Char)).length ≠ Spec.operandTokens .lai ∧ parseOperand ['3', '0', '0'] = some 300 ∧
      (splitLines ['\n', 'h', 'l', 't', ' ', '5'])[1]? = some ['h', 'l', 't', ' ', '5'] := by decide
theorem witness_accepted_line : assembleLine defaultOpcodeMap 1 ['h', 'l', 't'] = .ok [1] := by rfl
theorem witness_operand : parseOperand ['-', '1'] = some (-1) := by decide
theorem witness_digits : (∀ x ∈ [0, 9], x < 10) ∧ ['0', '9'] = Spec.digits [0, 9] := by decide
/-- Tokens of another form: no digit, a digit and a letter, a sign alone, two signs. -/
theorem witness_bad_operand : parseOperand ['x'] = none ∧ parseOperand ['1', 'x'] = none ∧ parseOperand ['-'] = none ∧
    parseOperand ['+', '-', '1'] = none ∧ tokens (stripComment ['L', 'A', 'I', ' ', '1', 'x']) = [['L', 'A', 'I'], ['1', 'x']] ∧
    (splitLines ['\n', 'L', 'A', 'I', ' ', '1', 'x'])[1]? = some ['L', 'A', 'I', ' ', '1', 'x'] := by decide
theorem witness_physical_line : '\n' ∉ ['H', 'L', 'T'] ∧
    assembleLine defaultOpcodeMap (1 + 1) ['f', 'o', ' ', '1'] = .error ⟨2, ['F', 'O'], .unknownMnemonic⟩ := ⟨by decide, rfl⟩
theorem witness_blank_text : ∀ line ∈ splitLines [' ', '\n', ';', 'x'], tokens (stripComment line) = [] := by decide
theorem witness_rendered_bytes : 33 ≤ (33#8 : Byte).toNat ∧ (126#8 : Byte).toNat ≤ 126 ∧ (31#8 : Byte).toNat < 32 ∧
    126 < (127#8 : Byte).toNat ∧ demo.exhaust.limitWarning = true ∧ demo.limitWarning = false := by decide

end Sys2Proof.Tests
end

/-! PROOFS. The state family (spec/10_state.md): fetching one byte, the effective address HL, who writes the flags, and
register C. -/

/-! ## What the decoder's and the engine's parts answer -/

namespace Sys2Proof

/-- A decoded instruction is encoded from the opcode byte it was decoded from (R60, R67), under every map. -/
theorem head?_encode_decodeBytes (m : OpcodeMap) (op b1 b2 : Byte) :
    (encode m (decodeBytes m op b1 b2)).head? = some op := by
  unfold decodeBytes
  cases hk : m.lookup op with
  | none => rfl
  | some k =>
    have hop := OpcodeMap.byte_of_lookup hk
    cases k <;> exact congrArg some hop

end Sys2Proof

namespace Sys2Proof.Machine

/-- The opcode byte at the program counter is the first byte of the fetched instruction's encoding. -/
theorem opcode_of_fetchInstr {m : OpcodeMap} {s : State} {i : Instr} (h : (fetchInstr m s).1 = i) :
    some (s.memRead s.pc.toNat) = (encode m i).head? := by
  rw [← h, fetchInstr_eq]
  exact (head?_encode_decodeBytes m _ _ _).symm

/-- Where the machine has not halted and the budget is spent, a step forces the halt (R93, log 7). -/
theorem engineStep_of_spent {cfg : Config} {s : State} (hh : s.halted = false) (hc : cfg.cycleLimit ≤ s.cycles) :
    engineStep cfg s = .next s.exhaust := by
  simp [engineStep, State.enabled, hh, hc]

/-- A step that changes the registers or the flags is an iteration whose fetched instruction changes them: the fetch,
the count and the forced halt leave both alone. -/
theorem exec_of_engineStep_changes {cfg : Config} {s t : State} (h : engineStep cfg s = .next t)
    (hne : t.regs ≠ s.regs ∨ t.flags ≠ s.flags) :
    ∃ s1 u, exec (fetchInstr cfg.opcodes s).1 s1 = .next u ∧
      s1.regs = s.regs ∧ s1.flags = s.flags ∧ u.regs = t.regs ∧ u.flags = t.flags := by
  obtain ⟨-, rfl⟩ | ⟨-, hi⟩ | ⟨-, -, rfl⟩ := engineStep_cases h
  · simp at hne
  · obtain ⟨u, hu, rfl⟩ := iteration_cases hi
    exact ⟨_, u, hu, by simp [fetchInstr_eq], by simp [fetchInstr_eq], rfl, rfl⟩
  · simp at hne

/-! ## Fetching one byte (R24, R86) -/

/-- A fetch with the capacity written out. -/
theorem fetch8_eq (s : State) :
    fetch8 s = (Memory.read s.mem (s.pc.toNat % 16384), s.setPc (BitVec.ofNat 16 ((s.pc.toNat + 1) % 16384))) :=
  Prod.ext (memRead_wrapA s s.pc.toNat).symm rfl

/-- The program counter after a fetch, which is below the capacity. -/
theorem toNat_pc_fetch8 (s : State) : (fetch8 s).2.pc.toNat = (s.pc.toNat + 1) % 16384 :=
  toNat_pcSucc s.pc

/-- Settles O10: the fetch's equation, and the wrap as the program counter's value at the last address. -/
theorem fetchReadsTheByteAndAdvancesModuloCapacity : Obligations.FetchReadsTheByteAndAdvancesModuloCapacity := by
  refine ⟨fetch8_eq, toNat_pc_fetch8, fun s hpc => ?_⟩
  apply BitVec.eq_of_toNat_eq
  rw [toNat_pc_fetch8, hpc]
  rfl

/-! ## The effective address (R37) -/

/-- HL as a number is the 14-bit word `H[5:0] ++ L`. -/
theorem State.hl_eq_toNat_append (s : State) :
    s.hl = (s.regs.h.extractLsb' 0 6 ++ s.regs.l : BitVec (6 + 8)).toNat := by
  rw [BitVec.toNat_append, BitVec.extractLsb'_toNat, ← Nat.shiftLeft_add_eq_or_of_lt s.regs.l.isLt, Nat.shiftLeft_eq]
  rfl

/-- Every effective address is an address of memory: a word of 14 bits is below `2 ^ 14`. -/
theorem State.hl_lt (s : State) : s.hl < 16384 := by
  rw [State.hl_eq_toNat_append]
  exact BitVec.isLt _

/-- Settles O23: HL is the word `H[5:0] ++ L`, which depends on H through its low six bits alone. -/
theorem effectiveAddressUsesLowSixBitsOfH : Obligations.EffectiveAddressUsesLowSixBitsOfH := by
  refine ⟨fun s => ⟨rfl, s.hl_lt, s.hl_eq_toNat_append⟩, fun s h hlow => ?_⟩
  rw [State.hl_eq_toNat_append, State.hl_eq_toNat_append, hlow]

/-! ## The writer of the flags (R28) -/

/-- A meaning leaves the flags as they were, or is ADB's. -/
theorem exec_flags_cases {i : Instr} {s t : State} (h : exec i s = .next t) : t.flags = s.flags ∨ i = .adb := by
  cases i <;> simp at h <;> subst h <;> simp

/-- ADB's answer does not depend on the flags before it: it writes all four. -/
theorem exec_adb_setFlags (s : State) (f : Flags) : exec .adb (s.setFlags f) = exec .adb s := rfl

/-- A step that changes a flag runs ADB. -/
theorem opcode_of_engineStep_changes_flags {cfg : Config} {s t : State} (h : engineStep cfg s = .next t)
    (hne : t.flags ≠ s.flags) : s.memRead s.pc.toNat = cfg.opcodes.adb := by
  obtain ⟨s1, u, hu, -, hs1, -, hut⟩ := exec_of_engineStep_changes h (.inr hne)
  have hadb := (exec_flags_cases hu).resolve_left (by rwa [hs1, hut])
  exact Option.some.inj (opcode_of_fetchInstr hadb)

/-- Settles O30: a step changes flags only in its execute phase, where only ADB's meaning writes them. -/
theorem onlyAdbWritesFlagsAndItWritesAllFour : Obligations.OnlyAdbWritesFlagsAndItWritesAllFour :=
  ⟨fun _ _ _ => opcode_of_engineStep_changes_flags, fun _ _ _ h hne => (exec_flags_cases h).resolve_left hne,
    exec_adb_setFlags⟩

/-! ## Register C (R20) -/

/-- A meaning leaves C as it was, or is LCI's. -/
theorem exec_c_cases {i : Instr} {s t : State} (h : exec i s = .next t) :
    t.regs.c = s.regs.c ∨ ∃ imm, i = .lci imm := by
  cases i <;> simp at h <;> subst h <;> simp [State.setReg]

/-- A step that changes C runs LCI. -/
theorem opcode_of_engineStep_changes_c {cfg : Config} {s t : State} (h : engineStep cfg s = .next t)
    (hne : t.regs.c ≠ s.regs.c) : s.memRead s.pc.toNat = cfg.opcodes.lci := by
  obtain ⟨s1, u, hu, hs1, -, hut, -⟩ := exec_of_engineStep_changes h (.inl fun hr => hne (by rw [hr]))
  obtain ⟨imm, hlci⟩ := (exec_c_cases hu).resolve_left (by rwa [hs1, hut])
  exact Option.some.inj (opcode_of_fetchInstr hlci)

/-- A fetch neither reads nor writes a register. -/
theorem fetchInstr_setReg (m : OpcodeMap) (s : State) (r : Reg) (v : Byte) :
    fetchInstr m (s.setReg r v) = ((fetchInstr m s).1, (fetchInstr m s).2.setReg r v) := by
  rw [fetchInstr_eq, fetchInstr_eq]
  cases r <;> rfl

/-- No meaning reads C: LCI answers its immediate in C whatever C was, and the others carry C along. -/
theorem exec_setReg_c {i : Instr} {s t : State} (h : exec i s = .next t) (v : Byte) :
    ∃ w, exec i (s.setReg .c v) = .next (t.setReg .c w) := by
  cases i with
  | lci imm => exact ⟨imm, by cases h; rfl⟩
  | _ => exact ⟨v, by cases h; rfl⟩

/-- A step with another C differs in C alone. -/
theorem engineStep_setReg_c {cfg : Config} {s t : State} (h : engineStep cfg s = .next t) (v : Byte) :
    ∃ w, engineStep cfg (s.setReg .c v) = .next (t.setReg .c w) := by
  obtain ⟨hh, rfl⟩ | ⟨he, hi⟩ | ⟨hh, hc, rfl⟩ := engineStep_cases h
  · exact ⟨v, engineStep_of_halted hh⟩
  · obtain ⟨u, hu, rfl⟩ := iteration_cases hi
    obtain ⟨w, hw⟩ := exec_setReg_c hu v
    have hiter : iteration cfg (s.setReg .c v) = .next (u.countCycle.setReg .c w) :=
      iteration_of_exec (by rw [fetchInstr_setReg]; exact hw)
    exact ⟨w, (engineStep_of_enabled (s := s.setReg .c v) he).trans hiter⟩
  · exact ⟨v, engineStep_of_spent hh hc⟩

/-- Settles O32: only LCI's meaning writes C, no phase of a step reads it, and the report's final line shows it. -/
theorem registerCIsWrittenByLciAndReadByNoInstruction :
    Obligations.RegisterCIsWrittenByLciAndReadByNoInstruction :=
  ⟨fun _ _ _ => opcode_of_engineStep_changes_c, fun _ _ _ v h => engineStep_setReg_c h v, fun _ => rfl⟩

end Sys2Proof.Machine

/-! PROOFS. The encoding family (spec/30_encoding.md): the length of an instruction, the address operand in the decoder
and in the assembler, and the first error of an assembly. -/

/-! ## The length of an instruction (R59) -/

namespace Sys2Proof

/-- Under an admitted map a byte is a mnemonic's exactly where the lookup finds that mnemonic (R60, R64). -/
theorem OpcodeMap.eq_byte_iff {m : OpcodeMap} (h : m.wf = true) {op : Byte} {k : Mnemonic} :
    op = m.byte k ↔ m.lookup op = some k :=
  ⟨fun hop => hop ▸ OpcodeMap.lookup_byte h k, fun hk => (OpcodeMap.byte_of_lookup hk).symm⟩

/-- R59's table of lengths, under an admitted map. -/
theorem one_add_operandCount_eq_ite {m : OpcodeMap} (h : m.wf = true) (op : Byte) :
    1 + operandCount m op =
      if op = m.jmp then 3 else if op = m.lai ∨ op = m.lbi ∨ op = m.lci then 2 else 1 := by
  change _ = if op = m.byte .jmp then 3 else if op = m.byte .lai ∨ op = m.byte .lbi ∨ op = m.byte .lci then 2 else 1
  simp only [OpcodeMap.eq_byte_iff h, operandCount]
  cases m.lookup op with
  | none => rfl
  | some k => cases k <;> rfl

/-- With the operand bytes there, the decoder answers the opcode byte's instruction and leaves the bytes after them. -/
theorem decode_cons_of_le {m : OpcodeMap} {op : Byte} {rest : List Byte} (h : operandCount m op ≤ rest.length) :
    ∃ b1 b2, decode m (op :: rest) = .ok (decodeBytes m op b1 b2, rest.drop (operandCount m op)) := by
  have hcount := operandCount_le m op
  simp only [decode]
  generalize operandCount m op = n at h hcount
  match n, rest with
  | 0, rest => exact ⟨_, _, rfl⟩
  | 1, b1 :: rest => exact ⟨_, _, rfl⟩
  | 2, b1 :: b2 :: rest => exact ⟨_, _, rfl⟩

/-- Where the list ends before the last operand byte, the decoder says so. -/
theorem decode_cons_of_lt {m : OpcodeMap} {op : Byte} {rest : List Byte} (h : rest.length < operandCount m op) :
    decode m (op :: rest) = .error .missingOperands := by
  have hcount := operandCount_le m op
  simp only [decode]
  generalize operandCount m op = n at h hcount
  match n, rest with
  | 1, [] => rfl
  | 2, [] => rfl
  | 2, [_] => rfl

/-- Settles O3: the length is one more than the operand count, which the lookup of the opcode byte alone determines. -/
theorem lengthToldFromTheOpcodeByteAlone : Obligations.LengthToldFromTheOpcodeByteAlone := by
  intro m op rest hm
  simp only [← one_add_operandCount_eq_ite hm op]
  refine ⟨fun hle => ?_, fun hlt => decode_cons_of_lt (by omega)⟩
  obtain ⟨b1, b2, hd⟩ := decode_cons_of_le (m := m) (op := op) (rest := rest) (by omega)
  exact ⟨_, length_decodeBytes m op b1 b2, by rw [hd, Nat.add_comm 1, List.drop_succ_cons]⟩

/-! ## The address operand (R62) -/

/-- The assembled address is below `2 ^ 16`, so it is not reduced. -/
theorem toNat_addr16 (low high : Byte) : (addr16 low high).toNat = high.toNat * 256 + low.toNat := by
  have := low.isLt
  have := high.isLt
  exact (BitVec.toNat_ofNat _ _).trans (Nat.mod_eq_of_lt (by omega))

theorem addr16_eq_append (low high : Byte) : addr16 low high = (high ++ low : BitVec (8 + 8)) := by
  apply BitVec.eq_of_toNat_eq
  rw [toNat_addr16, BitVec.toNat_append, ← Nat.shiftLeft_add_eq_or_of_lt low.isLt, Nat.shiftLeft_eq]

/-- JMP's byte and two bytes after it decode to the jump to the address they hold, under an admitted map. -/
theorem decode_jmp {m : OpcodeMap} (h : m.wf = true) (low high : Byte) (rest : List Byte) :
    decode m (m.jmp :: low :: high :: rest) = .ok (.jmp (addr16 low high), rest) := by
  have hk : m.lookup m.jmp = some .jmp := OpcodeMap.lookup_byte h .jmp
  simp [decode, operandCount, decodeBytes, Mnemonic.operandBytes, hk]

/-- Settles O4: JMP's operand decodes to `addr16`, whose number and whose bits are R62's. -/
theorem addressOperandIsHighByteTimes256PlusLowByte : Obligations.AddressOperandIsHighByteTimes256PlusLowByte :=
  fun _ low high rest hm => ⟨_, decode_jmp hm low high rest, toNat_addr16 low high, addr16_eq_append low high⟩

end Sys2Proof

namespace Sys2Proof.Machine

/-! ## The first error of an assembly (R78) -/

/-- The first refused line's error is the answer, after accepted lines and whatever lines follow. -/
theorem assembleLines_append_error {m : OpcodeMap} {line : List Char} {e : AssemblyError} (after : List (List Char)) :
    ∀ (before : List (List Char)) {n : Nat},
      (∀ (k : Nat) (l : List Char), before[k]? = some l → ∃ entries, assembleLine m (n + k) l = .ok entries) →
      assembleLine m (n + before.length) line = .error e →
      assembleLines m n (before ++ line :: after) = .error e
  | [], _, _, he => assembleLines_cons_error he after
  | first :: before, n, hok, he => by
    obtain ⟨entries, hfirst⟩ : ∃ entries, assembleLine m n first = .ok entries := hok 0 first rfl
    have hrest : assembleLines m (n + 1) (before ++ line :: after) = .error e := by
      refine assembleLines_append_error after before (fun k l hl => ?_) ?_
      · rw [Nat.add_assoc, Nat.add_comm 1]
        exact hok (k + 1) l hl
      · rwa [Nat.add_assoc, Nat.add_comm 1]
    rw [List.cons_append, assembleLines_cons_ok hfirst, hrest]
    rfl

/-- A failed assembly is the answer of the whole invocation, which runs nothing (R78, R110). -/
theorem invoke_of_assemble_error {cfg : Config} {text : List Char} {e : AssemblyError}
    (h : assemble cfg.opcodes text = .error e) : invoke cfg (some text) = .error (.assembly e) := by
  simp [invoke, assembleInput, h]

/-- Settles O53, by induction on the accepted lines before the first refused one. -/
theorem assemblyStopsAtTheFirstError : Obligations.AssemblyStopsAtTheFirstError :=
  ⟨fun _ _ before _ after _ hok he => assembleLines_append_error after before hok he,
    fun _ _ _ h => invoke_of_assemble_error h⟩

/-! ## The two bytes the assembler emits for an address (R76) -/

/-- The entries of a line with an operand that parses (R75, R76). -/
theorem emitLine_of_parseOperand {token : List Char} {n : Int} (h : parseOperand token = some n) (m : OpcodeMap)
    (line : Nat) (k : Mnemonic) : emitLine m line k [token] = .ok (opcodeEntry m k :: operandEntries k n) := by
  simp [emitLine, h]

/-- JMP's operand entries: 256 is positive, so the floor modulus and quotient are the Euclidean ones. -/
theorem operandEntries_jmp (n : Int) : operandEntries .jmp n = [n % 256, n / 256 % 256] := by
  simp [operandEntries, Mnemonic.operandBytes, Int.fmod_eq_emod_of_nonneg, Int.fdiv_eq_ediv_of_nonneg]

/-- The two operand bytes of an integer, put together, are the integer modulo 65536. -/
theorem addr16_wrap8_emod_ediv (n : Int) : addr16 (wrap8 (n % 256)) (wrap8 (n / 256 % 256)) = BitVec.ofInt 16 n := by
  apply BitVec.eq_of_toNat_eq
  simp only [toNat_addr16, wrap8, BitVec.toNat_ofInt]
  omega

/-- Settles O56: the emitted entries are the integer's two low base-256 digits. -/
theorem jumpOperandIsEmittedLowByteFirst : Obligations.JumpOperandIsEmittedLowByteFirst := by
  intro m line token n hn
  refine ⟨n % 256, n / 256 % 256, ?_, rfl, rfl, by omega, by omega, by omega, by omega, addr16_wrap8_emod_ediv n⟩
  rw [emitLine_of_parseOperand hn, operandEntries_jmp]
  rfl

end Sys2Proof.Machine

/-! PROOFS. The execution cycle family (spec/40_execution_cycle.md): the count of an iteration. -/

namespace Sys2Proof.Machine

/-- R85's condition for an iteration. -/
theorem State.enabled_iff {cfg : Config} {s : State} :
    s.enabled cfg = true ↔ s.halted = false ∧ s.cycles < cfg.cycleLimit := by
  simp [State.enabled]

/-- An iteration answers a next state, for every meaning does. -/
theorem iteration_answers_next (cfg : Config) (s : State) : ∃ t, iteration cfg s = .next t := by
  obtain ⟨u, hu⟩ := exec_answers_next (fetchInstr cfg.opcodes s).1 (fetchInstr cfg.opcodes s).2
  exact ⟨u.countCycle, iteration_of_exec hu⟩

/-- Settles O11: an enabled step is an iteration, which counts one cycle whatever instruction it fetched. -/
theorem everyIterationCountsOneCycle : Obligations.EveryIterationCountsOneCycle := by
  intro cfg s hhalted hcycles
  obtain ⟨t, ht⟩ := iteration_answers_next cfg s
  obtain ⟨-, -, hcount, -⟩ := iteration_frame ht
  exact ⟨t, (engineStep_of_enabled (State.enabled_iff.mpr ⟨hhalted, hcycles⟩)).trans ht, hcount⟩

end Sys2Proof.Machine

/-! PROOFS. The machine control family (spec/41_machine_control.md): HLT. -/

namespace Sys2Proof

/-- R64's constraint on HLT's byte. -/
theorem OpcodeMap.hlt_of_wf {m : OpcodeMap} (h : m.wf = true) : m.hlt = 0x01#8 := by
  simp only [OpcodeMap.wf, Bool.and_eq_true, decide_eq_true_eq] at h
  exact h.2

/-- HLT's byte selects HLT under every map, admitted or not: R90 tests for it first. -/
theorem OpcodeMap.lookup_hlt (m : OpcodeMap) : m.lookup m.hlt = some .hlt := by
  rw [OpcodeMap.lookup_eq_ite, if_pos rfl]

end Sys2Proof

namespace Sys2Proof.Machine

/-- With HLT's byte at the program counter, the fetch answers HLT and moves past that one byte. -/
theorem fetchInstr_of_hlt {m : OpcodeMap} {s : State} (h : s.memRead s.pc.toNat = m.hlt) :
    fetchInstr m s = (.hlt, s.setPc (pcAfter s.pc 1)) := by
  simp only [fetchInstr_eq, h, decodeBytes, operandCount, OpcodeMap.lookup_hlt, Mnemonic.operandBytes]

/-- A step whose budget is not spent counts a cycle on what the fetched instruction's meaning answers. -/
theorem engineStep_of_exec {cfg : Config} {s u : State} (hh : s.halted = false) (hc : s.cycles < cfg.cycleLimit)
    (h : exec (fetchInstr cfg.opcodes s).1 (fetchInstr cfg.opcodes s).2 = .next u) :
    engineStep cfg s = .next u.countCycle :=
  (engineStep_of_enabled (State.enabled_iff.mpr ⟨hh, hc⟩)).trans (iteration_of_exec h)

/-- A step that fetches HLT halts past its byte and counts one cycle. -/
theorem engineStep_of_hlt {cfg : Config} {s : State} (hh : s.halted = false) (hc : s.cycles < cfg.cycleLimit)
    (hop : s.memRead s.pc.toNat = cfg.opcodes.hlt) :
    engineStep cfg s = .next (s.setPc (pcAfter s.pc 1)).halt.countCycle :=
  engineStep_of_exec hh hc (by rw [fetchInstr_of_hlt hop, exec_hlt])

/-- No iteration is enabled in a halted state (R85). -/
theorem State.enabled_of_halted (cfg : Config) {s : State} (h : s.halted = true) : s.enabled cfg = false := by
  simp [State.enabled, h]

/-- Settles O14: HLT's arm of the meaning, the step that fetches it, and R64's constraint on its byte. -/
theorem hltSetsHaltedAndNothingElse : Obligations.HltSetsHaltedAndNothingElse := by
  refine ⟨exec_hlt, fun cfg s hh hc hop => ⟨engineStep_of_hlt hh hc hop, State.enabled_of_halted cfg rfl⟩, fun m hm => ?_⟩
  rw [encode, OpcodeMap.hlt_of_wf hm]

end Sys2Proof.Machine

/-! PROOFS. The arithmetic family (spec/44_arithmetic.md): the flag function. -/

namespace Sys2Proof.Machine

/-- Counting the indices of the set bits is adding up the bits (R9). -/
theorem popcount_eq_bitCount (v : Byte) : popcount v = Spec.bitCount v := by
  unfold popcount Spec.bitCount
  induction List.range 8 with
  | nil => rfl
  | cons k ks ih => rw [List.countP_cons, List.map_cons, List.sum_cons, ih, Nat.add_comm, Bool.toNat, Bool.cond_eq_ite]

/-- Zero compares the value itself, which its number determines (R103). -/
theorem zeroFlag_eq (v : Byte) : zeroFlag v = decide (v = 0#8) :=
  decide_eq_decide.mpr (BitVec.toNat_inj (y := 0#8))

/-- Sign is the value's most significant bit, bit 7 (R103). -/
theorem signFlag_eq_getLsbD (v : Byte) : signFlag v = v.getLsbD 7 :=
  v.msb_eq_decide.symm.trans v.msb_eq_getLsbD_last

/-- Parity by the sum of the bits (R103). -/
theorem parityFlag_eq (v : Byte) : parityFlag v = decide (Spec.bitCount v % 2 = 0) := by
  rw [parityFlag, popcount_eq_bitCount]

/-- Settles O20: flag by flag, then the flag function at 0 by evaluation. -/
theorem flagFunctionOfAValue : Obligations.FlagFunctionOfAValue := by
  refine ⟨fun r v => ?_, fun _ _ => rfl, rfl, by decide⟩
  rw [flagsOf, zeroFlag_eq, signFlag_eq_getLsbD, parityFlag_eq]
  rfl

end Sys2Proof.Machine

/-! PROOFS. Decoding and encoding (spec/30_encoding.md): what an opcode byte and two bytes after it decode to, and the two
round trips. -/

namespace Sys2Proof

/-! ## The instruction of a mnemonic and two bytes -/

/-- The instruction of a mnemonic with the two bytes after its opcode, of which a format looks at its own (R58, R61,
R62). -/
def Mnemonic.instr (k : Mnemonic) (b1 b2 : Byte) : Instr :=
  match k with
  | .hlt => .hlt
  | .lai => .lai b1
  | .lbi => .lbi b1
  | .lci => .lci b1
  | .lab => .lab
  | .lba => .lba
  | .adb => .adb
  | .lam => .lam
  | .lma => .lma
  | .jmp => .jmp (addr16 b1 b2)

/-- The decoder answers the instruction of the mnemonic it finds. -/
theorem decodeBytes_of_lookup {m : OpcodeMap} {op : Byte} {k : Mnemonic} (h : m.lookup op = some k) (b1 b2 : Byte) :
    decodeBytes m op b1 b2 = k.instr b1 b2 := by
  rw [decodeBytes, h]
  cases k <;> rfl

theorem decodeBytes_of_lookup_none {m : OpcodeMap} {op : Byte} (h : m.lookup op = none) (b1 b2 : Byte) :
    decodeBytes m op b1 b2 = .unassigned op := by
  rw [decodeBytes, h]

theorem operandCount_of_lookup {m : OpcodeMap} {op : Byte} {k : Mnemonic} (h : m.lookup op = some k) :
    operandCount m op = k.operandBytes := by
  rw [operandCount, h]

theorem operandCount_of_lookup_none {m : OpcodeMap} {op : Byte} (h : m.lookup op = none) : operandCount m op = 0 := by
  rw [operandCount, h]

/-- Every instruction but an unassigned byte is that of a mnemonic and two bytes. -/
theorem Instr.eq_unassigned_or_instr (i : Instr) :
    (∃ op, i = .unassigned op) ∨ ∃ (k : Mnemonic) (b1 b2 : Byte), i = k.instr b1 b2 := by
  cases i with
  | unassigned op => exact .inl ⟨op, rfl⟩
  | hlt => exact .inr ⟨.hlt, 0#8, 0#8, rfl⟩
  | lai imm => exact .inr ⟨.lai, imm, 0#8, rfl⟩
  | lbi imm => exact .inr ⟨.lbi, imm, 0#8, rfl⟩
  | lci imm => exact .inr ⟨.lci, imm, 0#8, rfl⟩
  | lab => exact .inr ⟨.lab, 0#8, 0#8, rfl⟩
  | lba => exact .inr ⟨.lba, 0#8, 0#8, rfl⟩
  | adb => exact .inr ⟨.adb, 0#8, 0#8, rfl⟩
  | lam => exact .inr ⟨.lam, 0#8, 0#8, rfl⟩
  | lma => exact .inr ⟨.lma, 0#8, 0#8, rfl⟩
  | jmp target => exact .inr ⟨.jmp, lowByte target, highByte target, by rw [Mnemonic.instr, addr16_low_high]⟩

/-- The encoding of a mnemonic's instruction: its opcode byte and as many of the two bytes as its arity (R58). -/
theorem encode_instr (m : OpcodeMap) (k : Mnemonic) (b1 b2 : Byte) :
    encode m (k.instr b1 b2) = m.byte k :: [b1, b2].take k.operandBytes := by
  cases k with
  | jmp => simp [Mnemonic.instr, encode, OpcodeMap.byte, Mnemonic.operandBytes]
  | _ => rfl

theorem wf_instr (m : OpcodeMap) (k : Mnemonic) (b1 b2 : Byte) : (k.instr b1 b2).wf m = true := by
  cases k <;> rfl

/-! ## The round trips -/

/-- The encoding of what three bytes decode to: the opcode byte and its operand bytes among the other two. -/
theorem encode_decodeBytes (m : OpcodeMap) (op b1 b2 : Byte) :
    encode m (decodeBytes m op b1 b2) = op :: [b1, b2].take (operandCount m op) := by
  cases hk : m.lookup op with
  | none => rw [decodeBytes_of_lookup_none hk, operandCount_of_lookup_none hk]; rfl
  | some k => rw [decodeBytes_of_lookup hk, operandCount_of_lookup hk, encode_instr, OpcodeMap.byte_of_lookup hk]

/-- The decoder answers well-formed instructions only (R67), under every map. -/
theorem wf_decodeBytes (m : OpcodeMap) (op b1 b2 : Byte) : (decodeBytes m op b1 b2).wf m = true := by
  cases hk : m.lookup op with
  | none => rw [decodeBytes_of_lookup_none hk]; exact decide_eq_true (OpcodeMap.lookup_eq_none.mp hk)
  | some k => rw [decodeBytes_of_lookup hk]; exact wf_instr m k b1 b2

/-- Under an admitted map every well-formed instruction is decoded from some bytes. -/
theorem exists_eq_decodeBytes {m : OpcodeMap} {i : Instr} (hm : m.wf = true) (hi : i.wf m = true) :
    ∃ op b1 b2, i = decodeBytes m op b1 b2 := by
  obtain ⟨op, rfl⟩ | ⟨k, b1, b2, rfl⟩ := i.eq_unassigned_or_instr
  · have hop : op ∉ m.bytes := of_decide_eq_true hi
    exact ⟨op, 0#8, 0#8, (decodeBytes_of_lookup_none (OpcodeMap.lookup_eq_none.mpr hop) _ _).symm⟩
  · exact ⟨m.byte k, b1, b2, (decodeBytes_of_lookup (OpcodeMap.lookup_byte hm k) b1 b2).symm⟩

/-- The decoder reads an opcode byte with its operand bytes, and leaves the rest. -/
theorem decode_cons_take (m : OpcodeMap) (op b1 b2 : Byte) (rest : List Byte) :
    decode m (op :: ([b1, b2].take (operandCount m op) ++ rest)) = .ok (decodeBytes m op b1 b2, rest) := by
  have hcount : operandCount m op = 0 ∨ operandCount m op = 1 ∨ operandCount m op = 2 := by
    have := operandCount_le m op
    omega
  rcases hcount with h | h | h
  · rw [← decodeBytes_of_count_zero h b1 b2]
    simp [decode, h]
  · rw [← decodeBytes_of_count_one h b1 b2]
    simp [decode, h]
  · simp [decode, h]

/-- Settles O1: a well-formed instruction is decoded from some bytes, which are what the encoder writes for it. -/
theorem decodeOfEncodeIsTheInstruction : Obligations.DecodeOfEncodeIsTheInstruction := by
  intro m i rest hm hi
  obtain ⟨op, b1, b2, rfl⟩ := exists_eq_decodeBytes hm hi
  rw [encode_decodeBytes, List.cons_append, decode_cons_take]

/-- What the decoder accepts: an opcode byte with its operand bytes, and the rest. -/
theorem bytes_of_decode {m : OpcodeMap} {bytes rest : List Byte} {i : Instr} (h : decode m bytes = .ok (i, rest)) :
    ∃ op b1 b2, i = decodeBytes m op b1 b2 ∧ bytes = op :: ([b1, b2].take (operandCount m op) ++ rest) := by
  cases bytes with
  | nil => cases h
  | cons op tail =>
    simp only [decode] at h
    split at h
    next hcount => cases h; exact ⟨op, 0#8, 0#8, rfl, by simp [hcount]⟩
    next b1 _ hcount => cases h; exact ⟨op, b1, 0#8, rfl, by simp [hcount]⟩
    next b1 b2 _ hcount => cases h; exact ⟨op, b1, b2, rfl, by simp [hcount]⟩
    next => cases h

/-- Settles O2: the accepted bytes are the opcode byte and its operand bytes, which the encoder writes again. -/
theorem encodeOfDecodeIsTheBytes : Obligations.EncodeOfDecodeIsTheBytes := by
  intro m bytes i rest h
  obtain ⟨op, b1, b2, rfl, rfl⟩ := bytes_of_decode h
  exact ⟨by rw [encode_decodeBytes, List.cons_append], wf_decodeBytes m op b1 b2⟩

/-! ## The unassigned bytes (R66) -/

/-- The numbers of the assigned bytes are, up to order, the numbers of the ten bytes of the map. -/
theorem assigned_perm {m : OpcodeMap} (h : m.bytes.Nodup) :
    ((List.range 256).filter (fun n => decide ((BitVec.ofNat 8 n : Byte) ∈ m.bytes))).Perm
      (m.bytes.map BitVec.toNat) := by
  rw [List.perm_ext_iff_of_nodup (List.nodup_range.filter _)
    ((List.nodup_map_iff fun _ _ => BitVec.eq_of_toNat_eq).mpr h)]
  intro n
  simp only [List.mem_filter, List.mem_range, decide_eq_true_eq, List.mem_map]
  constructor
  · rintro ⟨hn, hmem⟩
    exact ⟨_, hmem, by rw [BitVec.toNat_ofNat, Nat.mod_eq_of_lt hn]⟩
  · rintro ⟨b, hb, rfl⟩
    exact ⟨b.isLt, by rwa [BitVec.ofNat_toNat, BitVec.setWidth_eq]⟩

/-- Settles O5: the ten distinct bytes of the map account for ten of the 256 numbers. -/
theorem exactlyTwoHundredFortySixBytesAreUnassigned : Obligations.ExactlyTwoHundredFortySixBytesAreUnassigned := by
  intro m hm
  simp only [OpcodeMap.wf, Bool.and_eq_true, decide_eq_true_eq] at hm
  have hassigned := (assigned_perm hm.1).length_eq
  have hsplit := List.length_eq_length_filter_add (l := List.range 256)
    (fun n => decide ((BitVec.ofNat 8 n : Byte) ∈ m.bytes))
  rw [hassigned, List.length_map, List.length_range] at hsplit
  simp only [decide_not]
  have : m.bytes.length = 10 := rfl
  omega

/-! ## The default binding (R65) -/

/-- Settles O6, each word by evaluation. -/
theorem defaultBindingWordsDecode : Obligations.DefaultBindingWordsDecode :=
  ⟨defaultOpcodeMap_wf, rfl, rfl, rfl, rfl, rfl, rfl, rfl⟩

end Sys2Proof

/-! PROOFS. What a step does to memory, and the invariant it keeps (spec/10_state.md sections 5 to 8). -/

namespace Sys2Proof.Machine

/-! ## What an iteration and a step leave -/

/-- The instruction of the three bytes at the program counter. -/
theorem fetchInstr_fst (m : OpcodeMap) (s : State) :
    (fetchInstr m s).1 =
      decodeBytes m (s.memRead s.pc.toNat) (s.memRead (s.pc.toNat + 1)) (s.memRead (s.pc.toNat + 2)) :=
  congrArg Prod.fst (fetchInstr_eq m s)

/-- After the fetch the program counter is past the fetched instruction. -/
theorem fetchInstr_snd_eq (m : OpcodeMap) (s : State) :
    (fetchInstr m s).2 = s.setPc (pcAfter s.pc (fetchInstr m s).1.length) := by
  rw [fetchInstr_fst, length_decodeBytes]
  exact congrArg Prod.snd (fetchInstr_eq m s)

/-- An iteration leaves memory as it was, or writes A at HL. -/
theorem iteration_mem_cases {cfg : Config} {s t : State} (h : iteration cfg s = .next t) :
    t.mem = s.mem ∨ t.mem = Memory.write s.mem s.hl (s.reg .a) := by
  obtain ⟨u, hu, rfl⟩ := iteration_cases h
  rw [fetchInstr_snd_eq] at hu
  exact (exec_mem_cases hu).imp id And.right

/-- A step leaves memory as it was, or writes A at HL. -/
theorem engineStep_mem_cases {cfg : Config} {s t : State} (h : engineStep cfg s = .next t) :
    t.mem = s.mem ∨ t.mem = Memory.write s.mem s.hl (s.reg .a) := by
  obtain ⟨-, rfl⟩ | ⟨-, hi⟩ | ⟨-, -, rfl⟩ := engineStep_cases h
  · exact .inl rfl
  · exact iteration_mem_cases hi
  · exact .inl rfl

/-- What no step writes: D, E, H, L, SP and the stack (R21, R22, R36). -/
theorem engineStep_frame_undriven {cfg : Config} {s t : State} (h : engineStep cfg s = .next t) :
    t.regs.d = s.regs.d ∧ t.regs.e = s.regs.e ∧ t.regs.h = s.regs.h ∧ t.regs.l = s.regs.l ∧
      t.sp = s.sp ∧ t.stack = s.stack := by
  obtain ⟨-, rfl⟩ | ⟨-, hi⟩ | ⟨-, -, rfl⟩ := engineStep_cases h
  · exact ⟨rfl, rfl, rfl, rfl, rfl, rfl⟩
  · obtain ⟨hsp, hstack, -, -, hd, he, hh, hl⟩ := iteration_frame hi
    exact ⟨hd, he, hh, hl, hsp, hstack⟩
  · exact ⟨rfl, rfl, rfl, rfl, rfl, rfl⟩

/-! ## Storing bytes in address order (R45, R123) -/

/-- Storing bytes changes memory and nothing else. -/
theorem State.storeBytes_eq_of_mem (bytes : List Byte) (a : Nat) (s : State) :
    s.storeBytes a bytes = { s with mem := (s.storeBytes a bytes).mem } := by
  induction bytes generalizing a s with
  | nil => rfl
  | cons v rest ih => exact ih (a + 1) (s.memWrite a v)

/-- Storing bytes keeps the canonical form, write by write. -/
theorem State.wf_mem_storeBytes (bytes : List Byte) (a : Nat) {s : State} (h : Memory.wf s.mem = true) :
    Memory.wf (s.storeBytes a bytes).mem = true := by
  induction bytes generalizing a s with
  | nil => exact h
  | cons v rest ih => exact ih (a + 1) (Memory.wf_write h a v)

/-- A byte none of the stored ones falls on stays. -/
theorem State.memRead_storeBytes_other {bytes : List Byte} {a b : Nat} (s : State)
    (h : ∀ k, k < bytes.length → wrapA (a + k) ≠ wrapA b) : (s.storeBytes a bytes).memRead b = s.memRead b := by
  induction bytes generalizing a s with
  | nil => rfl
  | cons v rest ih =>
    have hrest (k : Nat) (hk : k < rest.length) : wrapA (a + 1 + k) ≠ wrapA b := by
      rw [Nat.add_assoc, Nat.add_comm 1]
      exact h (k + 1) (Nat.succ_lt_succ hk)
    have hfirst : wrapA b ≠ wrapA a := (h 0 (Nat.zero_lt_succ _)).symm
    exact (ih (s.memWrite a v) hrest).trans (Memory.read_write_other s.mem hfirst v)

/-- Of the stored bytes that fall on one address, the last is read there. -/
theorem State.memRead_storeBytes_last {bytes : List Byte} {a k : Nat} {v : Byte} (s : State) (hk : bytes[k]? = some v)
    (h : ∀ j, k < j → j < bytes.length → wrapA (a + j) ≠ wrapA (a + k)) : (s.storeBytes a bytes).memRead (a + k) = v := by
  induction bytes generalizing a k s with
  | nil => simp at hk
  | cons w rest ih =>
    have hshift (j : Nat) : a + 1 + j = a + (j + 1) := by omega
    cases k with
    | zero =>
      obtain rfl : w = v := Option.some.inj hk
      have hrest (j : Nat) (hj : j < rest.length) : wrapA (a + 1 + j) ≠ wrapA a := by
        rw [hshift]
        exact h (j + 1) (Nat.zero_lt_succ j) (Nat.succ_lt_succ hj)
      exact (memRead_storeBytes_other (s.memWrite a w) hrest).trans (Memory.read_write_same s.mem a w)
    | succ k =>
      have hrest := ih (a := a + 1) (s.memWrite a w) hk fun j hlt hj => by
        rw [hshift, hshift]
        exact h (j + 1) (Nat.succ_lt_succ hlt) (Nat.succ_lt_succ hj)
      rwa [hshift] at hrest

/-! ## The invariant (R32, R33, R36, R93) -/

/-- Every step keeps the canonical form of memory. -/
theorem wf_mem_of_engineStep {cfg : Config} {s t : State} (h : engineStep cfg s = .next t)
    (hwf : Memory.wf s.mem = true) : Memory.wf t.mem = true := by
  obtain hmem | hmem := engineStep_mem_cases h
  · rwa [hmem]
  · rw [hmem]
    exact Memory.wf_write hwf _ _

/-- A sound state that has not halted carries no warning. -/
theorem State.Sound.limitWarning_eq_false {cfg : Config} {s : State} (h : s.Sound cfg) (hh : s.halted = false) :
    s.limitWarning = false := by
  cases hw : s.limitWarning with
  | false => rfl
  | true => exact absurd (h.warning_halted hw).1 (by simp [hh])

/-- The count and the warning after a step from a sound state: unchanged where it has halted, one more cycle and no
warning after an iteration, and the warning at the spent budget. -/
theorem State.Sound.count_and_warning_of_engineStep {cfg : Config} {s t : State} (hs : s.Sound cfg)
    (h : engineStep cfg s = .next t) :
    t.cycles ≤ cfg.cycleLimit ∧ (t.limitWarning = true → t.halted = true ∧ t.cycles = cfg.cycleLimit) := by
  obtain ⟨-, rfl⟩ | ⟨he, hi⟩ | ⟨-, hspent, rfl⟩ := engineStep_cases h
  · exact ⟨hs.cycles_le, hs.warning_halted⟩
  · obtain ⟨hhalted, hbudget⟩ := State.enabled_iff.mp he
    obtain ⟨-, -, hcount, hwarning, -⟩ := iteration_frame hi
    rw [hcount, hwarning, hs.limitWarning_eq_false hhalted]
    exact ⟨hbudget, fun hfalse => by cases hfalse⟩
  · exact ⟨hs.cycles_le, fun _ => ⟨rfl, le_antisymm hs.cycles_le hspent⟩⟩

/-- Every step keeps the invariant. -/
theorem State.Sound.engineStep {cfg : Config} {s t : State} (hs : s.Sound cfg) (h : engineStep cfg s = .next t) :
    t.Sound cfg := by
  obtain ⟨-, -, -, -, hsp, hstack⟩ := engineStep_frame_undriven h
  obtain ⟨hcount, hwarning⟩ := hs.count_and_warning_of_engineStep h
  exact ⟨wf_mem_of_engineStep h hs.mem_wf, hstack ▸ hs.stack_wf, hsp ▸ hs.sp_lt, hcount, hwarning⟩

/-- Settles O45: memory changes by one write at most, the stack and SP do not, and the warning comes with the halt at the
spent budget. -/
theorem everyStepKeepsTheStateSound : Obligations.EveryStepKeepsTheStateSound :=
  ⟨fun _ _ _ => State.Sound.engineStep, fun _ _ => State.Sound.engineStep⟩

/-- The invariant at reset. -/
theorem State.Sound.reset (cfg : Config) : State.reset.Sound cfg :=
  ⟨Memory.wf_empty, rfl, Nat.two_pow_pos _, Nat.zero_le _, fun h => by cases h⟩

/-- A load stores its reduced entries, in address order. -/
theorem loadFrom_eq_storeBytes (img : List Int) (i : Nat) (s : State) :
    loadFrom i img s = s.storeBytes i (img.map wrap8) := by
  induction img generalizing i s with
  | nil => rfl
  | cons n rest ih => exact ih (i + 1) (s.memWrite i (wrap8 n))

theorem loadImage_eq_of_mem (img : List Int) (s : State) : loadImage img s = { s with mem := (loadImage img s).mem } := by
  rw [loadImage, loadFrom_eq_storeBytes]
  exact State.storeBytes_eq_of_mem _ 0 s

/-- Every field of the state a run starts from but memory is at its reset value. -/
theorem initialState_eq_of_mem (img : List Int) :
    initialState img = { State.reset with mem := (initialState img).mem } :=
  loadImage_eq_of_mem img State.reset

@[simp] theorem initialState_cycles (img : List Int) : (initialState img).cycles = 0 := by
  rw [initialState_eq_of_mem]
  rfl

@[simp] theorem initialState_limitWarning (img : List Int) : (initialState img).limitWarning = false := by
  rw [initialState_eq_of_mem]
  rfl

@[simp] theorem initialState_pc (img : List Int) : (initialState img).pc = 0#16 := by
  rw [initialState_eq_of_mem]
  rfl

theorem State.Sound.initialState (cfg : Config) (img : List Int) : (initialState img).Sound cfg := by
  obtain ⟨hmem, hstack, hsp, hcycles, hwarning⟩ := State.Sound.reset cfg
  have hwf : Memory.wf (Machine.initialState img).mem = true := by
    rw [Machine.initialState, loadImage, loadFrom_eq_storeBytes]
    exact State.wf_mem_storeBytes _ 0 hmem
  rw [initialState_eq_of_mem]
  exact ⟨hwf, hstack, hsp, hcycles, hwarning⟩

/-- Settles O46: the reset state's memory is empty, and the load keeps it canonical. -/
theorem resetAndLoadedStatesAreSound : Obligations.ResetAndLoadedStatesAreSound :=
  ⟨State.Sound.reset, State.Sound.initialState⟩

/-! ## The state no instruction drives (R21, R22, R36) -/

theorem State.UndrivenAtReset.engineStep {cfg : Config} {s t : State} (hs : s.UndrivenAtReset)
    (h : engineStep cfg s = .next t) : t.UndrivenAtReset := by
  obtain ⟨hd, he, hh, hl, hsp, hstack⟩ := engineStep_frame_undriven h
  exact ⟨hd ▸ hs.d_zero, he ▸ hs.e_zero, hh ▸ hs.h_zero, hl ▸ hs.l_zero, hsp ▸ hs.sp_zero, hstack ▸ hs.stack_empty⟩

theorem State.UndrivenAtReset.initialState (img : List Int) : (initialState img).UndrivenAtReset := by
  rw [initialState_eq_of_mem]
  exact ⟨rfl, rfl, rfl, rfl, rfl, rfl⟩

theorem State.hl_eq_zero {s : State} (hh : s.regs.h = 0#8) (hl : s.regs.l = 0#8) : s.hl = 0 := by
  simp [State.hl, State.reg, hh, hl]

/-- Settles O47: a step writes none of these fields, and the load writes memory alone. -/
theorem undrivenStateStaysAtReset : Obligations.UndrivenStateStaysAtReset :=
  ⟨fun _ _ _ => State.UndrivenAtReset.engineStep, ⟨rfl, rfl, rfl, rfl, rfl, rfl⟩, State.UndrivenAtReset.initialState,
    fun _ h => State.hl_eq_zero h.h_zero h.l_zero⟩

/-! ## Where a step can write (R43) -/

/-- With H = L = 0, at most one write at HL changes no byte but the one at address 0. -/
theorem memRead_of_write_at_hl_zero {s t : State} {v : Byte} (hl : s.hl = 0)
    (h : t.mem = s.mem ∨ t.mem = Memory.write s.mem s.hl v) {a : Nat} (ha : a % 16384 ≠ 0) :
    t.memRead a = s.memRead a := by
  obtain hmem | hmem := h
  · rw [State.memRead, hmem, State.memRead]
  · rw [State.memRead, hmem, hl, State.memRead]
    exact Memory.read_write_other s.mem (a := 0) (b := a) ha _

/-- Settles O41: the one write of a step is at HL, which is 0. -/
theorem storesReachAddressZeroOnly : Obligations.StoresReachAddressZeroOnly := by
  intro cfg s t hh hl h
  obtain ⟨-, -, hh', hl', -⟩ := engineStep_frame_undriven h
  exact ⟨fun _ => memRead_of_write_at_hl_zero (State.hl_eq_zero hh hl) (engineStep_mem_cases h), hh'.trans hh, hl'.trans hl⟩

end Sys2Proof.Machine

/-! PROOFS. The step of the execution cycle (spec/40_execution_cycle.md): what an enabled step answers, the program
counter's reduction, R90's pseudocode, and the step that answers everywhere. -/

namespace Sys2Proof.Machine

/-! ## The fetched instruction and the program counter (R24, R25, R45, R86) -/

theorem pcAfter_pcAfter (pc : Addr) (j k : Nat) : pcAfter (pcAfter pc j) k = pcAfter pc (j + k) := by
  rw [pcAfter, toNat_pcAfter, wrapA_wrapA_add, Nat.add_assoc, pcAfter]

/-- A read past a reduced program counter reads where a read past the unreduced one does. -/
theorem memRead_wrapA_add (s : State) (n k : Nat) : s.memRead (wrapA n + k) = s.memRead (n + k) := by
  rw [← memRead_wrapA s (wrapA n + k), wrapA_wrapA_add, memRead_wrapA]

/-- The fetch from a reduced program counter is the fetch from the unreduced one. -/
theorem fetchInstr_setPc_reduced (m : OpcodeMap) (s : State) :
    fetchInstr m (s.setPc (pcAfter s.pc 0)) = fetchInstr m s := by
  have hread (k : Nat) : s.memRead ((pcAfter s.pc 0).toNat + k) = s.memRead (s.pc.toNat + k) := by
    rw [toNat_pcAfter, Nat.add_zero, memRead_wrapA_add]
  have hread0 : s.memRead (pcAfter s.pc 0).toNat = s.memRead s.pc.toNat := hread 0
  simp only [fetchInstr_eq, State.setPc_pc, memRead_setPc, State.setPc_setPc, hread, hread0, pcAfter_pcAfter, Nat.zero_add]

theorem iteration_congr {cfg : Config} {s s' : State} (h : fetchInstr cfg.opcodes s' = fetchInstr cfg.opcodes s) :
    iteration cfg s' = iteration cfg s := by
  simp only [iteration, h]

/-- Settles O13: the fetch reduces the program counter, and nothing of it is left after the fetch. -/
theorem unreducedProgramCounterIsUnobservable : Obligations.UnreducedProgramCounterIsUnobservable := by
  intro cfg s hh hc
  have he : s.enabled cfg = true := State.enabled_iff.mpr ⟨hh, hc⟩
  have he' : (s.setPc (pcAfter s.pc 0)).enabled cfg = true := he
  calc engineStep cfg (s.setPc (pcAfter s.pc 0))
      = iteration cfg (s.setPc (pcAfter s.pc 0)) := engineStep_of_enabled he'
    _ = iteration cfg s := iteration_congr (fetchInstr_setPc_reduced cfg.opcodes s)
    _ = engineStep cfg s := (engineStep_of_enabled he).symm

/-- A meaning leaves the program counter as it was, or is JMP's. -/
theorem exec_pc_cases {i : Instr} {s t : State} (h : exec i s = .next t) :
    t.pc = s.pc ∨ ∃ target, i = .jmp target := by
  cases i with
  | jmp target => exact .inr ⟨target, rfl⟩
  | _ => cases h; exact .inl rfl

/-- Settles O38: the fetch leaves the program counter reduced, and only JMP's meaning writes it after that. -/
theorem onlyJmpLeavesTheProgramCounterUnreduced : Obligations.OnlyJmpLeavesTheProgramCounterUnreduced := by
  intro cfg s t hh hc h
  rw [engineStep_of_enabled (State.enabled_iff.mpr ⟨hh, hc⟩)] at h
  obtain ⟨u, hu, rfl⟩ := iteration_cases h
  obtain hpc | ⟨target, hjmp⟩ := exec_pc_cases hu
  · left
    rw [State.countCycle_pc, hpc, fetchInstr_snd_eq, State.setPc_pc, toNat_pcAfter]
    exact wrapA_lt _
  · exact .inr (Option.some.inj (opcode_of_fetchInstr hjmp))

/-! ## The step and the decoder (R67, R68, R86 to R88) -/

/-- Three bytes hold any instruction: they decode, to the instruction of the first with the other two. -/
theorem decode_three_bytes (m : OpcodeMap) (op b1 b2 : Byte) :
    ∃ rest, decode m [op, b1, b2] = .ok (decodeBytes m op b1 b2, rest) := by
  have h := decode_cons_take m op b1 b2 ([b1, b2].drop (operandCount m op))
  rw [List.take_append_drop] at h
  exact ⟨_, h⟩

/-- The three bytes at the program counter decode to the fetched instruction (R45, R68). -/
theorem decode_bytesAt (m : OpcodeMap) (s : State) :
    ∃ rest, decode m (s.bytesAt s.pc.toNat 3) = .ok ((fetchInstr m s).1, rest) := by
  obtain ⟨rest, hdec⟩ := decode_three_bytes m (s.memRead s.pc.toNat) (s.memRead (s.pc.toNat + 1))
    (s.memRead (s.pc.toNat + 2))
  exact ⟨rest, hdec.trans (by rw [fetchInstr_fst])⟩

/-- An enabled step is the meaning of the fetched instruction past its bytes, with one cycle counted. -/
theorem engineStep_eq_exec {cfg : Config} {s u : State} {i : Instr} (hh : s.halted = false)
    (hc : s.cycles < cfg.cycleLimit) (hi : (fetchInstr cfg.opcodes s).1 = i)
    (hu : exec i (s.setPc (pcAfter s.pc i.length)) = .next u) : engineStep cfg s = .next u.countCycle := by
  apply engineStep_of_exec hh hc
  rw [fetchInstr_snd_eq, hi, hu]

/-- Settles O7: the three bytes at the program counter decode to what the fetch answers, and the meaning of that is the
step. -/
theorem stepRunsTheDecodedInstruction : Obligations.StepRunsTheDecodedInstruction := by
  refine ⟨fun cfg s i rest hh hc hdec => ?_, fun m s => ?_, fun _ => rfl⟩
  · obtain ⟨rest', hfetch⟩ := decode_bytesAt cfg.opcodes s
    rw [hfetch] at hdec
    cases hdec
    obtain ⟨u, hu⟩ := exec_answers_next (fetchInstr cfg.opcodes s).1
      (s.setPc (pcAfter s.pc (fetchInstr cfg.opcodes s).1.length))
    have hu' : exec (fetchInstr cfg.opcodes s).1
        { s with pc := BitVec.ofNat 16 ((s.pc.toNat + (fetchInstr cfg.opcodes s).1.length) % 16384) } = .next u := hu
    rw [engineStep_eq_exec hh hc rfl hu, hu']
    rfl
  · obtain ⟨rest, hdec⟩ := decode_bytesAt m s
    exact ⟨_, rest, hdec, by rw [fetchInstr_fst]; exact wf_decodeBytes m _ _ _⟩

/-! ## R90's pseudocode -/

/-- ADB's meaning is R104's pseudocode with R103's flag function. -/
theorem exec_adb_eq_adbResult (s : State) : exec .adb s = .next (Spec.adbResult s) := by
  have hsum : (BitVec.ofNat 8 (adbSum s.regs.a s.regs.b) : Byte) =
      BitVec.ofNat 8 ((s.regs.a.toNat + s.regs.b.toNat) % 256) := by
    apply BitVec.eq_of_toNat_eq
    simp [adbSum]
  simp only [exec_adb, State.reg, hsum, flagsOf, parityFlag_eq]
  rfl

/-- The arm of R90 that a looked-up opcode byte takes, from the state past that byte. -/
def armR90 (k : Option Mnemonic) (s : State) : State :=
  match k with
  | some .hlt => s.halt
  | some .lai => (fetch8 s).2.setReg .a (fetch8 s).1
  | some .lbi => (fetch8 s).2.setReg .b (fetch8 s).1
  | some .lci => (fetch8 s).2.setReg .c (fetch8 s).1
  | some .lab => s.setReg .a (s.reg .b)
  | some .lba => s.setReg .b (s.reg .a)
  | some .adb => Spec.adbResult s
  | some .lam => s.setReg .a (s.memRead s.hl)
  | some .lma => s.memWrite s.hl (s.reg .a)
  | some .jmp => (fetch8 (fetch8 s).2).2.setPc (addr16 (fetch8 s).1 (fetch8 (fetch8 s).2).1)
  | none => s

/-- R90's chain of tests is the lookup of the opcode byte. -/
theorem iterationR90_eq_armR90 (m : OpcodeMap) (s : State) :
    Spec.iterationR90 m s = (armR90 (m.lookup (fetch8 s).1) (fetch8 s).2).countCycle := by
  rw [OpcodeMap.lookup_eq_ite]
  simp only [apply_ite fun k => armR90 k (fetch8 s).2]
  rfl

/-- The arm of R90 is the meaning of the fetched instruction: no arm writes before its last operand fetch. -/
theorem exec_fetchInstr_eq_armR90 (m : OpcodeMap) (s : State) :
    exec (fetchInstr m s).1 (fetchInstr m s).2 = .next (armR90 (m.lookup (fetch8 s).1) (fetch8 s).2) := by
  cases hk : m.lookup (fetch8 s).1 with
  | none => simp only [fetchInstr, operandCount_of_lookup_none hk, decodeBytes_of_lookup_none hk]; rfl
  | some k =>
    simp only [fetchInstr, operandCount_of_lookup hk, decodeBytes_of_lookup hk]
    cases k with
    | adb => exact exec_adb_eq_adbResult _
    | _ => rfl

/-- Settles O8: R90's tests are the table lookup, and its arms are the meanings. -/
theorem stepIsTheIterationOfTheSpec : Obligations.StepIsTheIterationOfTheSpec := by
  intro cfg s hh hc
  rw [engineStep_of_exec hh hc (exec_fetchInstr_eq_armR90 cfg.opcodes s), iterationR90_eq_armR90]

/-! ## A step answers everywhere (R85, R93, R96, R109) -/

theorem engineStep_answers_next (cfg : Config) (s : State) : ∃ t, engineStep cfg s = .next t := by
  cases hh : s.halted with
  | true => exact ⟨s, engineStep_of_halted hh⟩
  | false =>
    obtain hc | hc := Nat.lt_or_ge s.cycles cfg.cycleLimit
    · rw [engineStep_of_enabled (State.enabled_iff.mpr ⟨hh, hc⟩)]
      exact iteration_answers_next cfg s
    · exact ⟨s.exhaust, engineStep_of_spent hh hc⟩

/-- An address and the one a whole capacity further are the same cell. -/
theorem wrapA_add_memSize (a : Nat) : wrapA (a + memSize) = wrapA a := Nat.add_mod_right a memSize

/-- An overflowing sum sets Carry and wraps once. -/
theorem exec_adb_of_overflow {s : State} (h : s.regs.a.toNat + s.regs.b.toNat > 255) :
    ∃ t, exec .adb s = .next t ∧ t.flags.cf = true ∧ t.regs.a.toNat + 256 = s.regs.a.toNat + s.regs.b.toNat := by
  refine ⟨_, exec_adb_eq_adbResult s, decide_eq_true h, ?_⟩
  have ha := s.regs.a.isLt
  have hb := s.regs.b.isLt
  simp only [Spec.adbResult, BitVec.toNat_ofNat]
  omega

/-- Settles O12: every step and every meaning answers a next state, and the three events R109 names are defined. -/
theorem nothingRaisesAnException : Obligations.NothingRaisesAnException := by
  refine ⟨engineStep_answers_next, exec_answers_next, exec_unassigned, fun mem a v => ?_, fun _ => exec_adb_of_overflow⟩
  have ha : wrapA (a + 16384) = wrapA a := wrapA_add_memSize a
  exact ⟨by rw [Memory.read, ha, Memory.read], by rw [Memory.write, ha, Memory.write]⟩

/-- Settles O36: the step's halted branch answers the state itself. -/
theorem haltedStateIsTerminal : Obligations.HaltedStateIsTerminal :=
  fun _ _ => engineStep_of_halted

/-- Settles O37: exhaustion is the step of a spent state, and HLT's step leaves the warning as it was, unset. -/
theorem cycleExhaustionForcesTheHaltWithTheWarning : Obligations.CycleExhaustionForcesTheHaltWithTheWarning := by
  refine ⟨fun cfg s hh hc => engineStep_of_spent hh hc.ge, fun cfg s hh hw hc hop => ?_⟩
  refine ⟨_, engineStep_of_hlt hh (by omega) hop, ?_, engineStep_of_halted rfl⟩
  simp [State.haltReason, hw]

/-! ## The byte LMA stored (R55, R132) -/

/-- What a byte reads as after a store at HL. -/
theorem memRead_memWrite_hl (s : State) (v : Byte) (b : Nat) :
    (s.memWrite s.hl v).memRead b = if b % 16384 = s.hl then v else s.memRead b := by
  have hhl : wrapA s.hl = s.hl := Nat.mod_eq_of_lt s.hl_lt
  rw [State.memRead, State.memWrite_mem, Memory.read_write, hhl]
  rfl

/-- Settles O42: the fetch at the stored address reads A's byte, and the step runs what it decodes to. -/
theorem storedByteIsExecutedByTheNextFetch : Obligations.StoredByteIsExecutedByTheNextFetch := by
  intro cfg s t p hlma hp hh hc i
  cases hlma
  have hop : ((s.memWrite s.hl s.regs.a).setPc p).memRead p.toNat = s.regs.a := by
    rw [memRead_setPc, memRead_memWrite_hl, if_pos hp]
  have hi : (fetchInstr cfg.opcodes ((s.memWrite s.hl s.regs.a).setPc p)).1 = i := by
    rw [fetchInstr_fst, State.setPc_pc, hop]
    rfl
  obtain ⟨u, hu⟩ := exec_answers_next i ((s.memWrite s.hl s.regs.a).setPc (pcAfter p i.length))
  exact ⟨hi, ⟨u, hu, engineStep_eq_exec hh hc hi hu⟩, fun hhlt => ⟨_, engineStep_of_hlt hh hc (hop.trans hhlt), rfl⟩⟩

end Sys2Proof.Machine

/-! PROOFS. The instructions, each with its complete next state (spec/42 to 46), and the frames of spec/41 and of
spec/10_state.md: what each meaning and each step leaves alone, and what no step reads. -/

namespace Sys2Proof.Machine

/-! ## The instructions -/

/-- The step at a mnemonic's byte, under an admitted map: the meaning of the mnemonic's instruction with the two bytes
after the opcode, past its operand bytes, and one cycle. -/
theorem engineStep_of_byte {cfg : Config} {s u : State} {k : Mnemonic} (hm : cfg.opcodes.wf = true)
    (hh : s.halted = false) (hc : s.cycles < cfg.cycleLimit) (hop : s.memRead s.pc.toNat = cfg.opcodes.byte k)
    (hu : exec (k.instr (s.memRead (s.pc.toNat + 1)) (s.memRead (s.pc.toNat + 2)))
      (s.setPc (pcAfter s.pc (1 + k.operandBytes))) = .next u) : engineStep cfg s = .next u.countCycle := by
  have hk : cfg.opcodes.lookup (s.memRead s.pc.toNat) = some k := by rw [hop, OpcodeMap.lookup_byte hm k]
  apply engineStep_of_exec hh hc
  rw [fetchInstr_eq, decodeBytes_of_lookup hk, operandCount_of_lookup hk, hu]

/-- Settles O15: LAI's meaning on the byte after the opcode. -/
theorem laiLoadsTheAccumulator : Obligations.LaiLoadsTheAccumulator :=
  ⟨exec_lai, fun _ _ hm hh hc hop => (engineStep_of_byte (k := .lai) hm hh hc hop (exec_lai _ _)).trans rfl,
    fun _ _ => rfl, rfl, fun _ => rfl, rfl, rfl⟩

/-- Settles O16: LBI's meaning on the byte after the opcode. -/
theorem lbiLoadsRegisterB : Obligations.LbiLoadsRegisterB :=
  ⟨exec_lbi, fun _ _ hm hh hc hop => (engineStep_of_byte (k := .lbi) hm hh hc hop (exec_lbi _ _)).trans rfl,
    fun _ _ => rfl, rfl, fun _ => rfl, rfl, rfl⟩

/-- Settles O17: LCI's meaning on the byte after the opcode, and no phase of a step reads C. -/
theorem lciLoadsRegisterC : Obligations.LciLoadsRegisterC :=
  ⟨exec_lci, fun _ _ hm hh hc hop => (engineStep_of_byte (k := .lci) hm hh hc hop (exec_lci _ _)).trans rfl,
    fun _ _ => rfl, rfl, fun _ => rfl, rfl, rfl, fun _ _ _ v h => engineStep_setReg_c h v⟩

/-- Settles O18: LAB's meaning past its byte. -/
theorem labCopiesBToTheAccumulator : Obligations.LabCopiesBToTheAccumulator :=
  ⟨exec_lab, fun _ _ hm hh hc hop => (engineStep_of_byte (k := .lab) hm hh hc hop (exec_lab _)).trans rfl,
    fun _ => rfl, rfl⟩

/-- Where A and B are equal, ADB doubles A modulo 256. -/
theorem toNat_a_adbResult_of_eq {s : State} (h : s.regs.b = s.regs.a) :
    (Spec.adbResult s).regs.a.toNat = 2 * s.regs.a.toNat % 256 := by
  simp [Spec.adbResult, h, Nat.two_mul]

/-- Settles O19: LBA's meaning past its byte, after which ADB adds A to itself. -/
theorem lbaCopiesTheAccumulatorToB : Obligations.LbaCopiesTheAccumulatorToB :=
  ⟨exec_lba, fun _ _ hm hh hc hop => (engineStep_of_byte (k := .lba) hm hh hc hop (exec_lba _)).trans rfl,
    fun s => ⟨_, _, exec_lba s, exec_adb_eq_adbResult _, toNat_a_adbResult_of_eq rfl⟩, fun _ => rfl, rfl⟩

/-- Settles O21: ADB's meaning is R104's pseudocode, past its byte. -/
theorem adbAddsBAndWritesAllFlags : Obligations.AdbAddsBAndWritesAllFlags :=
  ⟨exec_adb_eq_adbResult,
    fun _ _ hm hh hc hop => (engineStep_of_byte (k := .adb) hm hh hc hop (exec_adb_eq_adbResult _)).trans rfl,
    fun _ => rfl, rfl⟩

/-- Nine bits hold the sum of two bytes. -/
theorem toNat_nineBitSum (x y : Byte) : (x.setWidth 9 + y.setWidth 9).toNat = x.toNat + y.toNat := by
  have hx := x.isLt
  have hy := y.isLt
  simp only [BitVec.toNat_add, BitVec.toNat_setWidth]
  omega

/-- Carry is the ninth bit of the sum, its most significant one (R105). -/
theorem carryFlag_adbSum (x y : Byte) : carryFlag (adbSum x y) = (x.setWidth 9 + y.setWidth 9).getLsbD 8 := by
  have hmsb := BitVec.msb_eq_decide (x.setWidth 9 + y.setWidth 9)
  rw [BitVec.msb_eq_getLsbD_last, toNat_nineBitSum] at hmsb
  exact hmsb.symm

/-- The reduced sum is the low eight bits of the nine-bit sum (R105). -/
theorem ofNat_adbSum (x y : Byte) : BitVec.ofNat 8 (adbSum x y) = (x.setWidth 9 + y.setWidth 9).setWidth 8 := by
  apply BitVec.eq_of_toNat_eq
  rw [BitVec.toNat_setWidth, toNat_nineBitSum, BitVec.toNat_ofNat, adbSum]

/-- Settles O22: Carry and the new A are the two parts of the nine-bit sum. -/
theorem adbIsTheNineBitSum : Obligations.AdbIsTheNineBitSum :=
  fun s => ⟨_, exec_adb s, carryFlag_adbSum s.regs.a s.regs.b, ofNat_adbSum s.regs.a s.regs.b⟩

/-- The byte at HL, the address reduced once more. -/
theorem read_hl_reduced (s : State) : Memory.read s.mem (Spec.hl s % 16384) = s.memRead s.hl := memRead_wrapA s s.hl

/-- Settles O24: LAM's meaning past its byte. -/
theorem lamLoadsTheByteAtHL : Obligations.LamLoadsTheByteAtHL := by
  refine ⟨fun s => ?_, fun cfg s hm hh hc hop => ?_, fun _ => State.hl_eq_zero, fun _ => rfl, rfl⟩
  · rw [read_hl_reduced]
    exact exec_lam s
  · rw [read_hl_reduced]
    exact (engineStep_of_byte (k := .lam) hm hh hc hop (exec_lam _)).trans rfl

/-- Settles O25: LMA's meaning past its byte, and what every byte reads as after a store at HL. -/
theorem lmaStoresTheAccumulatorAtHL : Obligations.LmaStoresTheAccumulatorAtHL := by
  refine ⟨fun s => ⟨_, exec_lma s, rfl, memRead_memWrite_hl s _⟩, fun cfg s hm hh hc hop => ?_,
    fun _ => State.hl_eq_zero, fun _ => rfl, rfl⟩
  have hread (b : Nat) : ((s.setPc (pcAfter s.pc 1)).memWrite s.hl s.regs.a).countCycle.memRead b =
      if b % 16384 = Spec.hl s then s.regs.a else s.memRead b := memRead_memWrite_hl s _ b
  exact ⟨_, engineStep_of_byte (k := .lma) hm hh hc hop (exec_lma _), rfl, hread,
    fun p hp => (hread p.toNat).trans (if_pos hp)⟩

/-- Settles O26: JMP's meaning on the address of the two bytes after the opcode. -/
theorem jmpSetsTheProgramCounter : Obligations.JmpSetsTheProgramCounter := by
  refine ⟨exec_jmp, fun cfg s hm hh hc hop => ?_, fun m target => ?_, rfl⟩
  · refine ⟨_, engineStep_of_byte (k := .jmp) hm hh hc hop (exec_jmp _ _), rfl, ?_, (memRead_wrapA s _).symm⟩
    have hread (n : Nat) : s.memRead (n % 16384) = s.memRead n := memRead_wrapA s n
    rw [hread, hread]
    exact toNat_addr16 _ _
  · have hlow : (BitVec.ofNat 8 (target.toNat % 256) : Byte) = lowByte target :=
      BitVec.eq_of_toNat_eq (Nat.mod_mod target.toNat 256)
    rw [hlow]
    rfl

/-- Settles O27: an unassigned byte is fetched, and its meaning changes nothing. -/
theorem unassignedByteIsAOneByteNoOp : Obligations.UnassignedByteIsAOneByteNoOp := by
  refine ⟨exec_unassigned, fun cfg s hh hc hop => ?_, fun _ _ => rfl, by decide⟩
  have hk := OpcodeMap.lookup_eq_none.mpr hop
  have hfetch : fetchInstr cfg.opcodes s = (.unassigned (s.memRead s.pc.toNat), s.setPc (pcAfter s.pc 1)) := by
    rw [fetchInstr_eq, decodeBytes_of_lookup_none hk, operandCount_of_lookup_none hk]
  have hstep : engineStep cfg s = .next (s.setPc (pcAfter s.pc 1)).countCycle :=
    engineStep_of_exec hh hc (by rw [hfetch, exec_unassigned])
  exact hstep.trans rfl

/-! ## Frames of the meanings (R18 to R22, R28, R31, R48) -/

/-- A meaning leaves every register but its destination. -/
theorem exec_reg_of_ne_destination {i : Instr} {s t : State} {r : Reg} (h : exec i s = .next t)
    (hr : Spec.destination i ≠ some r) : t.reg r = s.reg r := by
  have hother {q : Reg} (v : Byte) (hq : Spec.destination i = some q) : (s.setReg q v).reg r = s.reg r :=
    State.reg_setReg_other s v fun hrq => hr (hrq ▸ hq)
  cases i with
  | hlt | lma | jmp | unassigned => cases h; rfl
  | lai | lbi | lci | lab | lba | lam => cases h; exact hother _ rfl
  | adb => cases h; exact hother (q := .a) _ rfl

/-- Settles O28: register by register and field by field, who writes it. -/
theorem frameOfEveryInstruction : Obligations.FrameOfEveryInstruction := fun _ _ _ h =>
  ⟨fun _ => exec_reg_of_ne_destination h, fun hi => (exec_flags_cases h).resolve_right hi,
    fun hi => (exec_halted_cases h).resolve_right fun hhlt => hi hhlt.1,
    fun hi => (exec_pc_cases h).resolve_right fun ⟨target, hjmp⟩ => hi target hjmp, exec_frame_undriven h⟩

/-- Settles O29: only LMA's meaning writes memory, at HL. -/
theorem memoryFrameOfEveryInstruction : Obligations.MemoryFrameOfEveryInstruction := by
  refine ⟨fun i s t hi h a => ?_, fun s t h stored hhl a ha => ?_⟩
  · have hmem := (exec_mem_cases h).resolve_right fun hlma => hi hlma.1
    rw [State.memRead, hmem, State.memRead]
  · cases h
    exact (memRead_memWrite_hl s _ a).trans (if_neg (hhl ▸ ha))

/-! ## Who writes each register, over whole steps (R18 to R22) -/

theorem State.reg_congr {s t : State} (h : s.regs = t.regs) (r : Reg) : s.reg r = t.reg r := by
  cases r <;> simp only [State.reg, h]

/-- A step that changes a register fetched an instruction whose destination it is. -/
theorem destination_of_engineStep_changes_reg {cfg : Config} {s t : State} {r : Reg} (h : engineStep cfg s = .next t)
    (hne : t.reg r ≠ s.reg r) :
    ∃ i, Spec.destination i = some r ∧ some (s.memRead s.pc.toNat) = (encode cfg.opcodes i).head? := by
  obtain ⟨s1, u, hu, hs1, -, hut, -⟩ := exec_of_engineStep_changes h (.inl fun hr => hne (State.reg_congr hr r))
  refine ⟨_, ?_, opcode_of_fetchInstr rfl⟩
  by_contra hdest
  have hkept := exec_reg_of_ne_destination hu hdest
  rw [State.reg_congr hut, State.reg_congr hs1] at hkept
  exact hne hkept

theorem opcode_of_destination_a {m : OpcodeMap} {op : Byte} {i : Instr} (hi : Spec.destination i = some .a)
    (hop : some op = (encode m i).head?) : op ∈ [m.lai, m.lab, m.adb, m.lam] := by
  cases i <;> simp_all [Spec.destination, encode]

theorem opcode_of_destination_b {m : OpcodeMap} {op : Byte} {i : Instr} (hi : Spec.destination i = some .b)
    (hop : some op = (encode m i).head?) : op ∈ [m.lbi, m.lba] := by
  cases i <;> simp_all [Spec.destination, encode]

/-- Settles O31: a register a step changes is its instruction's destination, which the opcode byte tells. -/
theorem whoWritesEachRegister : Obligations.WhoWritesEachRegister := by
  intro cfg s t h
  obtain ⟨hd, he, hh, hl, -⟩ := engineStep_frame_undriven h
  refine ⟨fun ha => ?_, fun hb => ?_, opcode_of_engineStep_changes_c h, hd, he, hh, hl⟩
  · obtain ⟨i, hi, hop⟩ := destination_of_engineStep_changes_reg (r := .a) h ha
    exact opcode_of_destination_a hi hop
  · obtain ⟨i, hi, hop⟩ := destination_of_engineStep_changes_reg (r := .b) h hb
    exact opcode_of_destination_b hi hop

/-! ## What no step reads (R21, R29, R36) -/

/-- An overwriting of part of the state that no phase of a step notices: what decides a step and what the fetch reads
stay, and every phase answers as before, the part overwritten. -/
structure Unread {α : Type} (put : State → α → State) : Prop where
  halted : ∀ s x, (put s x).halted = s.halted
  cycles : ∀ s x, (put s x).cycles = s.cycles
  fetch : ∀ m s x, fetchInstr m (put s x) = ((fetchInstr m s).1, put (fetchInstr m s).2 x)
  exec : ∀ {i s t} x, exec i s = .next t → ∃ y, exec i (put s x) = .next (put t y)
  countCycle : ∀ s x, (put s x).countCycle = put s.countCycle x
  exhaust : ∀ s x, (put s x).exhaust = put s.exhaust x

/-- A step does not notice what no phase of it notices. -/
theorem Unread.engineStep {α : Type} {put : State → α → State} (hput : Unread put) {cfg : Config} {s t : State} (x : α)
    (h : engineStep cfg s = .next t) : ∃ y, engineStep cfg (put s x) = .next (put t y) := by
  obtain ⟨hh, rfl⟩ | ⟨he, hi⟩ | ⟨hh, hc, rfl⟩ := engineStep_cases h
  · exact ⟨x, engineStep_of_halted ((hput.halted _ x).trans hh)⟩
  · obtain ⟨u, hu, rfl⟩ := iteration_cases hi
    obtain ⟨hh, hc⟩ := State.enabled_iff.mp he
    obtain ⟨y, hy⟩ := hput.exec x hu
    refine ⟨y, ?_⟩
    rw [← hput.countCycle]
    exact engineStep_of_exec ((hput.halted s x).trans hh) ((hput.cycles s x).trans_lt hc) (by rw [hput.fetch, hy])
  · refine ⟨x, ?_⟩
    rw [← hput.exhaust]
    exact engineStep_of_spent ((hput.halted s x).trans hh) (hc.trans_eq (hput.cycles s x).symm)

/-- No meaning reads a flag: ADB overwrites all four, and the others carry them along. -/
theorem exec_setFlags {i : Instr} {s t : State} (f : Flags) (h : exec i s = .next t) :
    ∃ f', exec i (s.setFlags f) = .next (t.setFlags f') := by
  cases i with
  | adb => exact ⟨t.flags, by cases h; rfl⟩
  | _ => exact ⟨f, by cases h; rfl⟩

theorem unread_setFlags : Unread State.setFlags where
  halted _ _ := rfl
  cycles _ _ := rfl
  fetch m s f := by rw [fetchInstr_eq, fetchInstr_eq]; rfl
  exec f h := exec_setFlags f h
  countCycle _ _ := rfl
  exhaust _ _ := rfl

/-- Settles O33: no phase of a step notices other flags. -/
theorem noInstructionReadsTheFlags : Obligations.NoInstructionReadsTheFlags :=
  fun _ _ _ f => unread_setFlags.engineStep f

/-- D, E, SP and the stack overwritten. -/
def State.setUnused (d e : Byte) (sp : Nat) (stack : Cells) (s : State) : State :=
  { s with regs := { s.regs with d := d, e := e }, sp := sp, stack := stack }

/-- No meaning reads D, E, SP or the stack, and every one carries them along. -/
theorem exec_setUnused {i : Instr} {s t : State} (d e : Byte) (sp : Nat) (stack : Cells) (h : exec i s = .next t) :
    exec i (s.setUnused d e sp stack) = .next (t.setUnused d e sp stack) := by
  cases i <;> cases h <;> rfl

theorem unread_setUnused (d e : Byte) (sp : Nat) (stack : Cells) :
    Unread fun s (_ : Unit) => s.setUnused d e sp stack where
  halted _ _ := rfl
  cycles _ _ := rfl
  fetch m s _ := by rw [fetchInstr_eq, fetchInstr_eq]; rfl
  exec _ h := ⟨(), exec_setUnused d e sp stack h⟩
  countCycle _ _ := rfl
  exhaust _ _ := rfl

/-- Settles O34: no step writes the unused state, and no phase of it notices another. -/
theorem unusedStateIsCarriedThrough : Obligations.UnusedStateIsCarriedThrough := by
  intro cfg s t d e sp stack h
  obtain ⟨hd, he, -, -, hsp, hstack⟩ := engineStep_frame_undriven h
  obtain ⟨-, hput⟩ := (unread_setUnused d e sp stack).engineStep () h
  exact ⟨hd, he, hsp, hstack, hput⟩

/-! ## The halted flag (R31) -/

/-- HLT's meaning sets `halted` whatever it was, and the others carry it along. -/
theorem exec_setHalted {i : Instr} {s t : State} (b : Bool) (h : exec i s = .next t) :
    ∃ b', exec i { s with halted := b } = .next { t with halted := b' } := by
  cases i with
  | hlt => exact ⟨true, by cases h; rfl⟩
  | _ => exact ⟨b, by cases h; rfl⟩

/-- At a spent budget every step answers a halted state: the forced one, or the state itself where it has halted. -/
theorem engineStep_halted_of_spent {cfg : Config} {s : State} (hc : cfg.cycleLimit ≤ s.cycles) :
    ∃ t, engineStep cfg s = .next t ∧ t.halted = true := by
  cases hh : s.halted with
  | true => exact ⟨s, engineStep_of_halted hh, hh⟩
  | false => exact ⟨s.exhaust, engineStep_of_spent hh hc, rfl⟩

/-- A step that halts runs HLT, or the budget is spent. -/
theorem opcode_or_spent_of_engineStep_halts {cfg : Config} {s t : State} (h : engineStep cfg s = .next t)
    (hh : s.halted = false) (ht : t.halted = true) :
    s.memRead s.pc.toNat = cfg.opcodes.hlt ∨ cfg.cycleLimit ≤ s.cycles := by
  obtain ⟨hh', -⟩ | ⟨-, hi⟩ | ⟨-, hc, -⟩ := engineStep_cases h
  · simp [hh] at hh'
  · obtain ⟨u, hu, rfl⟩ := iteration_cases hi
    rw [fetchInstr_snd_eq] at hu
    obtain hkept | ⟨hhlt, -⟩ := exec_halted_cases hu
    · have hu_halted : u.halted = false := hkept.trans hh
      simp [hu_halted] at ht
    · exact .inl (Option.some.inj (opcode_of_fetchInstr hhlt))
  · exact .inr hc

/-- Settles O35: HLT's step and exhaustion halt, no other step does, and a halted state's step is itself. -/
theorem haltedIsSetByHltOrExhaustionAndNeverCleared : Obligations.HaltedIsSetByHltOrExhaustionAndNeverCleared := by
  refine ⟨rfl, fun s => ⟨_, exec_hlt s, rfl⟩, fun cfg s hh hc hop => ⟨_, engineStep_of_hlt hh hc hop, rfl⟩,
    fun _ _ => engineStep_halted_of_spent, fun cfg s t h hh => ?_, fun _ _ _ => opcode_or_spent_of_engineStep_halts,
    fun cfg _ => State.enabled_of_halted cfg, fun _ _ _ => exec_setHalted⟩
  rw [engineStep_of_halted hh] at h
  cases h
  exact hh

end Sys2Proof.Machine

/-! PROOFS. Memory (spec/00_scope.md section 5, spec/10_state.md section 6), reset and load (spec/70_reset_and_hazards.md),
and the run (spec/40_execution_cycle.md). -/

namespace Sys2Proof.Machine

/-! ## The memory primitives (R9 to R11, R33) -/

/-- The floor modulus of an integer, as a byte (R9). -/
theorem toNat_wrap8 (n : Int) : ((wrap8 n).toNat : Int) = n % 256 := by
  rw [wrap8, BitVec.toNat_ofInt]
  exact Int.toNat_of_nonneg (Int.emod_nonneg n (by decide))

/-- Settles O39: each primitive by its law. -/
theorem memoryPrimitives : Obligations.MemoryPrimitives :=
  ⟨fun _ => rfl, toNat_wrap8, fun mem a => congrArg (Cells.get · mem) (wrapA_wrapA a).symm, Memory.read_write, fun _ => rfl⟩

/-- Keys at or above the bound read as unlisted. -/
theorem Cells.get_of_bound_le {bound low k : Nat} (hk : bound ≤ k) {cells : Cells}
    (hw : Cells.wfFrom bound low cells = true) : Cells.get k cells = unlistedByte := by
  induction cells generalizing low with
  | nil => rfl
  | cons c rest ih =>
    obtain ⟨j, v⟩ := c
    obtain ⟨-, hj, -, hrest⟩ := Cells.wfFrom_cons.mp hw
    rw [Cells.get, if_neg (by omega), ih hrest]

/-- Settles O40: equal bytes below the capacity are equal bytes at every key, since above it both read as unlisted. -/
theorem canonicalMemoryIsDeterminedByItsBytes : Obligations.CanonicalMemoryIsDeterminedByItsBytes := by
  intro mem mem' hwf hwf' hread
  refine Cells.eq_of_get_eq hwf hwf' fun k => ?_
  obtain hk | hk := Nat.lt_or_ge k memSize
  · have hwrap : wrapA k = k := Nat.mod_eq_of_lt hk
    simpa only [Memory.read, hwrap] using hread k hk
  · rw [Cells.get_of_bound_le hk hwf, Cells.get_of_bound_le hk hwf']

/-! ## Reset and load (R45, R122 to R124) -/

/-- Settles O43: each field at reset, and memory and the stack as empty lists. -/
theorem resetStateIsZeroedWithFlagDefaults : Obligations.ResetStateIsZeroedWithFlagDefaults :=
  ⟨fun r => by cases r <;> rfl, rfl, rfl, fun _ => rfl, rfl, rfl, rfl, fun _ => rfl⟩

/-- Of the entries that fall on one address, the last is read there, reduced. -/
theorem memRead_loadImage_last {img : List Int} {k : Nat} {n : Int} (s : State) (hn : img[k]? = some n)
    (hlast : ∀ j : Nat, k < j → j < img.length → wrapA j ≠ wrapA k) : (loadImage img s).memRead k = wrap8 n := by
  have hk : (img.map wrap8)[k]? = some (wrap8 n) := by rw [List.getElem?_map, hn]; rfl
  have hread := State.memRead_storeBytes_last (a := 0) s hk fun j hkj hj => by
    rw [Nat.zero_add, Nat.zero_add]
    exact hlast j hkj (List.length_map wrap8 ▸ hj)
  rwa [Nat.zero_add, ← loadFrom_eq_storeBytes] at hread

/-- An address no entry falls on keeps its byte. -/
theorem memRead_loadImage_other {img : List Int} {a : Nat} (s : State)
    (hnone : ∀ k : Nat, k < img.length → wrapA k ≠ wrapA a) : (loadImage img s).memRead a = s.memRead a := by
  rw [loadImage, loadFrom_eq_storeBytes]
  refine State.memRead_storeBytes_other s fun k hk => ?_
  rw [Nat.zero_add]
  exact hnone k (List.length_map wrap8 ▸ hk)

/-- Settles O44: a load stores its reduced entries from address 0 up, and nothing else. -/
theorem imageLoadPlacesEveryEntry : Obligations.ImageLoadPlacesEveryEntry :=
  ⟨fun _ s _ _ => memRead_loadImage_last s, fun _ s _ => memRead_loadImage_other s, loadImage_eq_of_mem,
    fun img => ⟨rfl, initialState_pc img⟩⟩

/-- Fewer bytes than the capacity, stored in address order, are read back each at its place. -/
theorem State.memRead_storeBytes {bytes : List Byte} {a k : Nat} {v : Byte} (s : State) (hk : bytes[k]? = some v)
    (hlen : bytes.length ≤ memSize) : (s.storeBytes a bytes).memRead (a + k) = v := by
  refine State.memRead_storeBytes_last s hk fun j hkj hj heq => ?_
  simp only [wrapA, memSize] at heq hlen
  omega

/-- A table word decodes to the instruction of its three bytes. -/
theorem decodeTableWord_eq (nbits w : Nat) :
    decodeTableWord nbits w =
      some (decodeBytes defaultOpcodeMap (tableByte nbits w 0) (tableByte nbits w 1) (tableByte nbits w 2)) := by
  obtain ⟨rest, hdec⟩ := decode_three_bytes defaultOpcodeMap (tableByte nbits w 0) (tableByte nbits w 1)
    (tableByte nbits w 2)
  rw [decodeTableWord, tableBytes, hdec]

/-- Settles O9: the fetch reads back the three stored bytes. -/
theorem fetchWordIsWhatTheNextFetchReads : Obligations.FetchWordIsWhatTheNextFetchReads := by
  intro s nbits w i hi
  have hmem : s.withFetchWord nbits w = { s with mem := (s.withFetchWord nbits w).mem } :=
    State.storeBytes_eq_of_mem (tableBytes nbits w) s.pc.toNat s
  have hpc : (s.withFetchWord nbits w).pc = s.pc := by rw [hmem]
  have hread {k : Nat} {v : Byte} (hk : (tableBytes nbits w)[k]? = some v) :
      (s.withFetchWord nbits w).memRead (s.pc.toNat + k) = v :=
    State.memRead_storeBytes s hk (by decide : 3 ≤ memSize)
  have h0 : (s.withFetchWord nbits w).memRead s.pc.toNat = tableByte nbits w 0 := hread (k := 0) rfl
  have h1 := hread (k := 1) rfl
  have h2 := hread (k := 2) rfl
  refine ⟨?_, hmem⟩
  rw [fetchInstr_fst, hpc, h0, h1, h2]
  exact Option.some.inj ((decodeTableWord_eq nbits w).symm.trans hi)

/-! ## The bounded loop (R84, R85, R93) -/

/-- The loop ends at once in a halted state. -/
theorem boundedLoop_of_halted (cfg : Config) (n : Nat) {s : State} (h : s.halted = true) :
    boundedLoop cfg n s = .next s := by
  cases n with
  | zero => rfl
  | succ n => rw [boundedLoop, if_pos h]

/-- The loop goes on from the answer of one iteration. -/
theorem boundedLoop_succ {cfg : Config} {s t : State} (n : Nat) (hh : s.halted = false)
    (h : iteration cfg s = .next t) : boundedLoop cfg (n + 1) s = boundedLoop cfg n t := by
  simp [boundedLoop, hh, h]

/-- The loop answers a state within its budget, at the budget's end where it has not halted, with the warning it began
with. -/
theorem boundedLoop_answers (cfg : Config) (n : Nat) (s : State) :
    ∃ u, boundedLoop cfg n s = .next u ∧ u.cycles ≤ s.cycles + n ∧ (u.halted = false → u.cycles = s.cycles + n) ∧
      u.limitWarning = s.limitWarning := by
  induction n generalizing s with
  | zero => exact ⟨s, rfl, le_rfl, fun _ => rfl, rfl⟩
  | succ n ih =>
    cases hh : s.halted with
    | true => exact ⟨s, boundedLoop_of_halted cfg _ hh, Nat.le_add_right _ _, fun h => by simp [hh] at h, rfl⟩
    | false =>
      obtain ⟨t, ht⟩ := iteration_answers_next cfg s
      obtain ⟨-, -, hcount, hwarning, -⟩ := iteration_frame ht
      obtain ⟨u, hu, hle, hend, hw⟩ := ih t
      exact ⟨u, (boundedLoop_succ n hh ht).trans hu, by omega, fun h => by rw [hend h]; omega, hw.trans hwarning⟩

/-- What every iteration keeps, the loop keeps. -/
theorem boundedLoop_keeps {cfg : Config} {P : State → Prop} (hP : ∀ s t, P s → iteration cfg s = .next t → P t) {n : Nat}
    {s u : State} (hs : P s) (h : boundedLoop cfg n s = .next u) : P u := by
  induction n generalizing s with
  | zero => cases h; exact hs
  | succ n ih =>
    cases hh : s.halted with
    | true =>
      rw [boundedLoop_of_halted cfg _ hh] at h
      cases h
      exact hs
    | false =>
      obtain ⟨t, ht⟩ := iteration_answers_next cfg s
      rw [boundedLoop_succ n hh ht] at h
      exact ih (hP s t hs ht) h

/-- The run ends the loop's answer. -/
theorem run_of_boundedLoop {cfg : Config} {img : List Int} {u : State}
    (h : boundedLoop cfg cfg.cycleLimit (initialState img) = .next u) : run cfg img = .next u.endOfRun := by
  rw [run, h]

theorem State.endOfRun_of_halted {s : State} (h : s.halted = true) : s.endOfRun = s := if_pos h

theorem State.endOfRun_of_not_halted {s : State} (h : s.halted = false) : s.endOfRun = s.exhaust := by
  simp [State.endOfRun, h]

/-- Settles O48: the loop answers within the budget, and what it answers has halted or has spent it. -/
theorem everyRunTerminatesWithItsHaltReason : Obligations.EveryRunTerminatesWithItsHaltReason := by
  intro cfg img
  obtain ⟨u, hu, hle, hend, hw⟩ := boundedLoop_answers cfg cfg.cycleLimit (initialState img)
  rw [initialState_cycles, Nat.zero_add] at hle hend
  rw [initialState_limitWarning] at hw
  refine ⟨u, _, hu, run_of_boundedLoop hu, ?_⟩
  cases hh : u.halted with
  | true =>
    rw [State.endOfRun_of_halted hh]
    exact ⟨hh, hle, fun _ => ⟨rfl, by simp [State.haltReason, hh, hw], hw⟩, fun h => by cases h⟩
  | false =>
    rw [State.endOfRun_of_not_halted hh]
    exact ⟨rfl, hle, fun h => (by cases h), fun _ => ⟨rfl, hend hh, rfl⟩⟩

/-! ## The host's repeated step -/

theorem coreRun_succ {s t : State} (n : Nat) (h : step s = .next t) :
    Host.Core.run core (n + 1) s = Host.Core.run core n t := by
  have hcore : core.step s = .next t := h
  simp only [Host.Core.run, hcore]

theorem coreRun_of_halted (n : Nat) {s : State} (h : s.halted = true) : Host.Core.run core n s = .next s := by
  induction n with
  | zero => rfl
  | succ n ih => rw [coreRun_succ n (engineStep_of_halted h), ih]

/-- From a state whose budget holds exactly the loop's iterations, more steps than these give the loop's answer, ended. -/
theorem coreRun_of_boundedLoop {k n : Nat} {s u : State} (hbudget : s.cycles + k = defaultCycleLimit) (hkn : k < n)
    (h : boundedLoop defaultConfig k s = .next u) : Host.Core.run core n s = .next u.endOfRun := by
  induction k generalizing n s with
  | zero =>
    obtain rfl : s = u := by cases h; rfl
    cases hh : s.halted with
    | true => rw [coreRun_of_halted n hh, State.endOfRun_of_halted hh]
    | false =>
      obtain ⟨n, rfl⟩ := Nat.exists_eq_add_one.mpr hkn
      have hstep : step s = .next s.exhaust := engineStep_of_spent hh hbudget.ge
      rw [coreRun_succ n hstep, coreRun_of_halted n s.exhaust_halted, State.endOfRun_of_not_halted hh]
  | succ k ih =>
    cases hh : s.halted with
    | true =>
      rw [boundedLoop_of_halted _ _ hh] at h
      cases h
      rw [coreRun_of_halted n hh, State.endOfRun_of_halted hh]
    | false =>
      obtain ⟨n, rfl⟩ := Nat.exists_eq_add_one.mpr (Nat.zero_lt_of_lt hkn)
      obtain ⟨t, ht⟩ := iteration_answers_next defaultConfig s
      obtain ⟨-, -, hcount, -⟩ := iteration_frame ht
      have hc : s.cycles < defaultConfig.cycleLimit := by
        change s.cycles < defaultCycleLimit
        omega
      have hstep : step s = .next t := (engineStep_of_enabled (State.enabled_iff.mpr ⟨hh, hc⟩)).trans ht
      rw [boundedLoop_succ k hh ht] at h
      rw [coreRun_succ n hstep, ih (by omega) (by omega) h]

/-- Settles O49: the loop from a loaded image has the whole budget before it. -/
theorem runIsTheRepeatedStep : Obligations.RunIsTheRepeatedStep := by
  intro img n hn
  obtain ⟨u, hu, -⟩ := boundedLoop_answers defaultConfig defaultCycleLimit (initialState img)
  exact (coreRun_of_boundedLoop (by rw [initialState_cycles, Nat.zero_add]) hn hu).trans (run_of_boundedLoop hu).symm

/-! ## What a run leaves in memory (R43, R50) -/

/-- H and L are 0, and every byte away from address 0 is as in a given state. -/
structure State.AsAwayFromZero (s₀ s : State) : Prop where
  h_zero : s.regs.h = 0#8
  l_zero : s.regs.l = 0#8
  memRead_eq : ∀ a : Nat, a % 16384 ≠ 0 → s.memRead a = s₀.memRead a

/-- An iteration with H = L = 0 writes at address 0 at most. -/
theorem State.AsAwayFromZero.iteration {s₀ s t : State} {cfg : Config} (hs : s₀.AsAwayFromZero s)
    (h : iteration cfg s = .next t) : s₀.AsAwayFromZero t := by
  obtain ⟨-, -, -, -, -, -, hh, hl⟩ := iteration_frame h
  have hread {a : Nat} (ha : a % 16384 ≠ 0) : t.memRead a = s.memRead a :=
    memRead_of_write_at_hl_zero (State.hl_eq_zero hs.h_zero hs.l_zero) (iteration_mem_cases h) ha
  exact ⟨hh.trans hs.h_zero, hl.trans hs.l_zero, fun a ha => (hread ha).trans (hs.memRead_eq a ha)⟩

/-- Every byte away from address 0 is, at the end of a run, as loaded. -/
theorem memRead_of_run {cfg : Config} {img : List Int} {t : State} (h : run cfg img = .next t) {a : Nat}
    (ha : a % 16384 ≠ 0) : t.memRead a = (initialState img).memRead a := by
  obtain ⟨u, hu, -⟩ := boundedLoop_answers cfg cfg.cycleLimit (initialState img)
  have hundriven := State.UndrivenAtReset.initialState img
  have hkept : (initialState img).AsAwayFromZero u :=
    boundedLoop_keeps (fun _ _ => State.AsAwayFromZero.iteration)
      ⟨hundriven.h_zero, hundriven.l_zero, fun _ _ => rfl⟩ hu
  have hmem : u.endOfRun.mem = u.mem := by rw [State.endOfRun]; split <;> rfl
  rw [run_of_boundedLoop hu] at h
  cases h
  rw [State.memRead, hmem]
  exact hkept.memRead_eq a ha

/-- Settles O50: the run keeps the window, where a short image leaves the reset state's zeros. -/
theorem runsLeaveMemoryAboveAddressZeroAsLoaded : Obligations.RunsLeaveMemoryAboveAddressZeroAsLoaded := by
  refine ⟨fun _ _ _ h _ => memRead_of_run h, fun cfg img t hlen h a hfirst hlast => ?_⟩
  rw [memRead_of_run h (by omega)]
  exact memRead_loadImage_other State.reset fun k hk (hwrap : k % 16384 = a % 16384) => by omega

end Sys2Proof.Machine

/-! PROOFS. The assembler (spec/30_encoding.md section 5) and the report (spec/70_reset_and_hazards.md section 4). -/

namespace Sys2Proof.Machine

/-! ## Physical lines (R71, R73, R78) -/

/-- Text without an LF before an LF is the first line. -/
theorem splitLines_append_newline {line : List Char} (h : '\n' ∉ line) (rest : List Char) :
    splitLines (line ++ '\n' :: rest) = line :: splitLines rest := by
  induction line with
  | nil => rfl
  | cons c cs ih =>
    obtain ⟨hc, hcs⟩ := List.ne_and_not_mem_of_not_mem_cons h
    rw [List.cons_append, splitLines, if_neg (by simpa using Ne.symm hc), ih hcs, consFirst]

/-- Text without an LF is one line. -/
theorem splitLines_of_no_newline {line : List Char} (h : '\n' ∉ line) : splitLines line = [line] := by
  induction line with
  | nil => rfl
  | cons c cs ih =>
    obtain ⟨hc, hcs⟩ := List.ne_and_not_mem_of_not_mem_cons h
    rw [splitLines, if_neg (by simpa using Ne.symm hc), ih hcs, consFirst]

/-- The first refused line of a text gives the text's error, the line at index `k` being numbered `k + 1`. -/
theorem assemble_of_first_error {m : OpcodeMap} {text line : List Char} {k : Nat} {e : AssemblyError}
    (hline : (splitLines text)[k]? = some line) (hbefore : Spec.AcceptedBefore m text k)
    (he : assembleLine m (k + 1) line = .error e) : assemble m text = .error e := by
  obtain ⟨hk, hget⟩ := List.getElem?_eq_some_iff.mp hline
  have hlen : ((splitLines text).take k).length = k := List.length_take_of_le hk.le
  have hsplit : (splitLines text).take k ++ line :: (splitLines text).drop (k + 1) = splitLines text := by
    rw [← hget, List.getElem_cons_drop, List.take_append_drop]
  rw [assemble, ← hsplit]
  refine assembleLines_append_error _ _ (fun j l hj => ?_) (by rwa [hlen, Nat.add_comm])
  rw [List.getElem?_take] at hj
  split at hj
  next hjk => rw [Nat.add_comm]; exact hbefore j l hjk hj
  next => cases hj

/-- A blank or comment-only line emits nothing (R71). -/
theorem assembleLine_of_blank {text : List Char} (ht : tokens (stripComment text) = []) (m : OpcodeMap) (n : Nat) :
    assembleLine m n text = .ok [] := by
  rw [assembleLine, ht]

/-- An unknown mnemonic's line is refused (R73). -/
theorem assembleLine_of_unknown {text name : List Char} {operands : List (List Char)}
    (ht : tokens (stripComment text) = name :: operands) (hk : mnemonicOfName (upperCase name) = none) (m : OpcodeMap)
    (n : Nat) : assembleLine m n text = .error ⟨n, upperCase name, .unknownMnemonic⟩ := by
  simp only [assembleLine, ht, hk]

/-- A wrong number of operand tokens refuses the line, with the name as written in upper case (R74). -/
theorem assembleLine_of_miscounted {text name : List Char} {operands : List (List Char)} {k : Mnemonic}
    (ht : tokens (stripComment text) = name :: operands) (hk : mnemonicOfName (upperCase name) = some k)
    (hcount : operands.length ≠ operandTokens k) (m : OpcodeMap) (n : Nat) :
    assembleLine m n text = .error ⟨n, upperCase name, .operandCount (operandTokens k) operands.length⟩ := by
  simp only [assembleLine, ht, hk, if_neg hcount, mnemonicName_of_ofName hk]

/-- What a line answers: nothing for a blank one, an error for an unknown mnemonic or a wrong count, and otherwise what
its mnemonic and operand tokens emit. -/
theorem assembleLine_cases (m : OpcodeMap) (n : Nat) (text : List Char) :
    (tokens (stripComment text) = [] ∧ assembleLine m n text = .ok []) ∨
    ∃ name operands, tokens (stripComment text) = name :: operands ∧
      (assembleLine m n text = .error ⟨n, upperCase name, .unknownMnemonic⟩ ∨
        ∃ k, mnemonicOfName (upperCase name) = some k ∧
          (assembleLine m n text = .error ⟨n, upperCase name, .operandCount (operandTokens k) operands.length⟩ ∨
            (operands.length = operandTokens k ∧ assembleLine m n text = emitLine m n k operands))) := by
  cases ht : tokens (stripComment text) with
  | nil => exact .inl ⟨rfl, assembleLine_of_blank ht m n⟩
  | cons name operands =>
    refine .inr ⟨name, operands, rfl, ?_⟩
    cases hk : mnemonicOfName (upperCase name) with
    | none => exact .inl (assembleLine_of_unknown ht hk m n)
    | some k =>
      by_cases hcount : operands.length = operandTokens k
      · exact .inr ⟨k, rfl, .inr ⟨hcount, assembleLine_of_counted ht hk hcount⟩⟩
      · exact .inr ⟨k, rfl, .inl (assembleLine_of_miscounted ht hk hcount m n)⟩

/-- A line's error carries the line's number. -/
theorem line_of_assembleLine_error {m : OpcodeMap} {n : Nat} {text : List Char} {e : AssemblyError}
    (h : assembleLine m n text = .error e) : e.line = n := by
  obtain ⟨-, ha⟩ | ⟨name, operands, -, ha | ⟨k, -, ha | ⟨-, ha⟩⟩⟩ := assembleLine_cases m n text <;>
    rw [ha] at h
  · cases h
  · cases h; rfl
  · cases h; rfl
  · cases operands with
    | nil => cases h
    | cons token rest =>
      rw [emitLine] at h
      split at h
      next => cases h; rfl
      next => cases h

/-- Settles O60: the lines by recursion on the text, and the first refused line's error. -/
theorem physicalLinesEndAtLfAndCountFromOne : Obligations.PhysicalLinesEndAtLfAndCountFromOne :=
  ⟨fun _ h => ⟨splitLines_of_no_newline h, splitLines_append_newline h⟩,
    fun _ _ _ _ _ hline hbefore he => ⟨assemble_of_first_error hline hbefore he, line_of_assembleLine_error he⟩⟩

/-- Settles O54: the line is refused, and it is the first such line. -/
theorem unknownMnemonicFailsWithLineAndName : Obligations.UnknownMnemonicFailsWithLineAndName :=
  fun m _ k _ _ _ hline hbefore ht hk => assemble_of_first_error hline hbefore (assembleLine_of_unknown ht hk m (k + 1))

/-! ## Absent and blank text (R83) -/

/-- Lines that hold no instruction assemble to nothing. -/
theorem assembleLines_of_blank {m : OpcodeMap} {lines : List (List Char)} (n : Nat)
    (h : ∀ line ∈ lines, tokens (stripComment line) = []) : assembleLines m n lines = .ok [] := by
  induction lines generalizing n with
  | nil => rfl
  | cons line rest ih =>
    obtain ⟨hline, hrest⟩ := List.forall_mem_cons.mp h
    rw [assembleLines_cons_ok (assembleLine_of_blank hline m n), ih (n + 1) hrest]
    rfl

/-- Settles O58: the input check comes first, and blank lines emit nothing. -/
theorem absentTextFailsAndBlankTextIsTheEmptyImage : Obligations.AbsentTextFailsAndBlankTextIsTheEmptyImage := by
  refine ⟨fun _ => rfl, fun m text h => ?_⟩
  rw [assembleInput, assemble, assembleLines_of_blank 1 h]

/-! ## Operand tokens (R74 to R76) -/

theorem operandTokens_eq_spec (k : Mnemonic) : operandTokens k = Spec.operandTokens k := by
  cases k <;> rfl

/-- The entries of an operand by its mnemonic's format. -/
theorem operandEntries_of_one_token {k : Mnemonic} (hk : Spec.operandTokens k = 1) (n : Int) :
    operandEntries k n = if k = .jmp then [n % 256, n / 256 % 256] else [n] := by
  cases k with
  | jmp => exact operandEntries_jmp n
  | lai | lbi | lci => rfl
  | hlt | lab | lba | adb | lam | lma => cases hk

/-- A counted line emits its opcode's entry, then its operand's, which a format without operand does not look at. -/
theorem entries_of_emitLine {m : OpcodeMap} {line : Nat} {k : Mnemonic} {operands : List (List Char)}
    {entries : List Int} (hcount : operands.length = operandTokens k) (h : emitLine m line k operands = .ok entries) :
    ∃ n : Int, entries = opcodeEntry m k :: operandEntries k n := by
  cases operands with
  | nil =>
    have hzero : k.operandBytes = 0 := by
      by_contra hne
      simp [operandTokens, hne] at hcount
    cases h
    exact ⟨0, by simp only [operandEntries, hzero]⟩
  | cons token rest =>
    rw [emitLine] at h
    split at h
    next => cases h
    next n _ => cases h; exact ⟨n, rfl⟩

/-- A line that holds an instruction and assembles is counted and emitted. -/
theorem emitLine_of_assembleLine {m : OpcodeMap} {n : Nat} {text name : List Char} {operands : List (List Char)}
    {entries : List Int} (ht : tokens (stripComment text) = name :: operands) (h : assembleLine m n text = .ok entries) :
    ∃ k, mnemonicOfName (upperCase name) = some k ∧ operands.length = operandTokens k ∧
      emitLine m n k operands = .ok entries := by
  obtain ⟨ht', -⟩ | ⟨name', operands', ht', hcases⟩ := assembleLine_cases m n text <;> rw [ht] at ht'
  · cases ht'
  · cases ht'
    obtain ha | ⟨k, hk, ha | ⟨hcount, ha⟩⟩ := hcases <;> rw [ha] at h
    · cases h
    · cases h
    · exact ⟨k, hk, hcount, h⟩

/-- Settles O55: a miscounted line is refused, and a counted one emits its opcode and its operand. -/
theorem operandTokensAreCounted : Obligations.OperandTokensAreCounted := by
  intro m line text name operands k ht hk
  simp only [← operandTokens_eq_spec]
  refine ⟨fun hcount => ⟨assembleLine_of_miscounted ht hk hcount m line, fun source j hline hbefore =>
      assemble_of_first_error hline hbefore (assembleLine_of_miscounted ht hk hcount m (j + 1))⟩,
    fun hzero hnil => ?_, fun token n hone htoken hn => ?_, fun entries hentries => ?_⟩
  · subst hnil
    exact assembleLine_of_counted ht hk hzero.symm
  · subst htoken
    rw [assembleLine_of_counted ht hk hone.symm, emitLine_of_parseOperand hn,
      operandEntries_of_one_token (operandTokens_eq_spec k ▸ hone)]
    rfl
  · obtain ⟨k', hk', hcount, hemit⟩ := emitLine_of_assembleLine ht hentries
    obtain rfl : k = k' := Option.some.inj (hk.symm.trans hk')
    refine ⟨hcount, ?_⟩
    obtain ⟨n, rfl⟩ := entries_of_emitLine hcount hemit
    rfl

/-! ## Decimal operands (R77) -/

/-- Digits read after those of an accumulator: exactly the characters of digits below ten, in base ten. -/
theorem digitsFrom_eq_some_iff {cs : List Char} {acc v : Nat} :
    digitsFrom acc cs = some v ↔
      ∃ ds : List Nat, (∀ x ∈ ds, x < 10) ∧ cs = Spec.digits ds ∧ v = ds.foldl (fun a x => a * 10 + x) acc := by
  induction cs generalizing acc with
  | nil =>
    constructor
    · intro h
      exact ⟨[], by simp, rfl, (Option.some.inj h).symm⟩
    · rintro ⟨ds, -, hds, rfl⟩
      rw [List.map_eq_nil_iff.mp hds.symm]
      rfl
  | cons c cs ih =>
    rw [digitsFrom, Option.bind_eq_some_iff]
    constructor
    · rintro ⟨d, hd, hrest⟩
      obtain ⟨hlt, rfl⟩ := digitValue_eq_some hd
      obtain ⟨ds, hds, rfl, rfl⟩ := ih.mp hrest
      exact ⟨d :: ds, List.forall_mem_cons.mpr ⟨hlt, hds⟩, rfl, rfl⟩
    · rintro ⟨ds, hds, heq, rfl⟩
      cases ds with
      | nil => cases heq
      | cons d ds =>
        obtain ⟨hlt, hrest⟩ := List.forall_mem_cons.mp hds
        obtain ⟨rfl, rfl⟩ := List.cons.inj heq
        exact ⟨d, digitValue_ofNat hlt, ih.mpr ⟨ds, hrest, rfl, rfl⟩⟩

/-- Exactly one or more digits are read, in base ten. -/
theorem parseDigits_eq_some_iff {cs : List Char} {v : Nat} :
    parseDigits cs = some v ↔
      ∃ ds : List Nat, ds ≠ [] ∧ (∀ x ∈ ds, x < 10) ∧ cs = Spec.digits ds ∧ v = Spec.value ds := by
  cases cs with
  | nil =>
    constructor
    · intro h
      cases h
    · rintro ⟨ds, hne, -, hds, -⟩
      exact absurd (List.map_eq_nil_iff.mp hds.symm) hne
  | cons c cs =>
    rw [parseDigits, digitsFrom_eq_some_iff]
    constructor
    · rintro ⟨ds, hlt, hds, hv⟩
      exact ⟨ds, (by rintro rfl; cases hds), hlt, hds, hv⟩
    · rintro ⟨ds, -, hlt, hds, hv⟩
      exact ⟨ds, hlt, hds, hv⟩

/-- No sign is a digit, so digits after an accumulator begin with none. -/
theorem parseDigits_of_sign {c : Char} (hc : digitValue c = none) (cs : List Char) : parseDigits (c :: cs) = none := by
  rw [parseDigits, digitsFrom, hc]
  rfl

/-- An operand is digits, or digits after one sign. -/
theorem parseOperand_eq_some_iff {token : List Char} {n : Int} :
    parseOperand token = some n ↔
      (∃ v : Nat, parseDigits token = some v ∧ n = (v : Int)) ∨
        (∃ cs v, token = '+' :: cs ∧ parseDigits cs = some v ∧ n = (v : Int)) ∨
        (∃ cs v, token = '-' :: cs ∧ parseDigits cs = some v ∧ n = -(v : Int)) := by
  have hplus (cs : List Char) : parseDigits ('+' :: cs) = none := parseDigits_of_sign rfl cs
  have hminus (cs : List Char) : parseDigits ('-' :: cs) = none := parseDigits_of_sign rfl cs
  unfold parseOperand
  split
  next cs => simp [hplus, eq_comm]
  next cs => simp [hminus, eq_comm]
  next hnoplus hnominus =>
    have hnoplus' (cs : List Char) : token ≠ '+' :: cs := hnoplus cs
    have hnominus' (cs : List Char) : token ≠ '-' :: cs := hnominus cs
    simp [hnoplus', hnominus', eq_comm]

/-- A token that does not parse refuses a counted line, with the name as written in upper case (R77). -/
theorem assembleLine_of_bad_operand {text name token : List Char} {k : Mnemonic}
    (ht : tokens (stripComment text) = [name, token]) (hk : mnemonicOfName (upperCase name) = some k)
    (hcount : operandTokens k = 1) (hbad : parseOperand token = none) (m : OpcodeMap) (n : Nat) :
    assembleLine m n text = .error ⟨n, upperCase name, .badOperand token⟩ := by
  rw [assembleLine_of_counted ht hk hcount.symm, ← mnemonicName_of_ofName hk]
  simp only [emitLine, hbad]

/-- Settles O57: the tokens that parse, by their sign, and the first line with one that does not. -/
theorem operandTokenIsASignedDecimalInteger : Obligations.OperandTokenIsASignedDecimalInteger := by
  refine ⟨fun token n => ?_, fun m line text name token k ht hk hone hbad => ?_⟩
  · simp only [parseOperand_eq_some_iff, parseDigits_eq_some_iff]
    constructor
    · rintro (⟨_, ⟨ds, hne, hlt, rfl, rfl⟩, rfl⟩ | ⟨_, _, rfl, ⟨ds, hne, hlt, rfl, rfl⟩, rfl⟩ |
        ⟨_, _, rfl, ⟨ds, hne, hlt, rfl, rfl⟩, rfl⟩)
      · exact ⟨ds, hne, hlt, .inl ⟨rfl, rfl⟩⟩
      · exact ⟨ds, hne, hlt, .inr (.inl ⟨rfl, rfl⟩)⟩
      · exact ⟨ds, hne, hlt, .inr (.inr ⟨rfl, rfl⟩)⟩
    · rintro ⟨ds, hne, hlt, ⟨rfl, rfl⟩ | ⟨rfl, rfl⟩ | ⟨rfl, rfl⟩⟩
      · exact .inl ⟨_, ⟨ds, hne, hlt, rfl, rfl⟩, rfl⟩
      · exact .inr (.inl ⟨_, _, rfl, ⟨ds, hne, hlt, rfl, rfl⟩, rfl⟩)
      · exact .inr (.inr ⟨_, _, rfl, ⟨ds, hne, hlt, rfl, rfl⟩, rfl⟩)
  · rw [← operandTokens_eq_spec] at hone
    exact ⟨assembleLine_of_bad_operand ht hk hone hbad m line, fun source j hline hbefore =>
      assemble_of_first_error hline hbefore (assembleLine_of_bad_operand ht hk hone hbad m (j + 1))⟩

/-! ## The image (R79, R82) -/

/-- An accepted list of lines: the first line's entries, then the other lines'. -/
theorem assembleLines_cons_eq_ok {m : OpcodeMap} {n : Nat} {line : List Char} {rest : List (List Char)} {img : List Int}
    (h : assembleLines m n (line :: rest) = .ok img) :
    ∃ entries more, assembleLine m n line = .ok entries ∧ assembleLines m (n + 1) rest = .ok more ∧
      img = entries ++ more := by
  cases hline : assembleLine m n line with
  | error e => rw [assembleLines_cons_error hline] at h; cases h
  | ok entries =>
    rw [assembleLines_cons_ok hline] at h
    cases hrest : assembleLines m (n + 1) rest with
    | error e => rw [hrest] at h; cases h
    | ok more => rw [hrest] at h; cases h; exact ⟨entries, more, rfl, rfl, rfl⟩

/-- An accepted line is blank and emits nothing, or emits the opcode and the operand of its mnemonic. -/
theorem assembleLine_eq_ok_cases {m : OpcodeMap} {n : Nat} {text : List Char} {entries : List Int}
    (h : assembleLine m n text = .ok entries) :
    (tokens (stripComment text) = [] ∧ entries = []) ∨
      ∃ name operands k v, tokens (stripComment text) = name :: operands ∧ mnemonicOfName (upperCase name) = some k ∧
        entries = opcodeEntry m k :: operandEntries k v := by
  cases ht : tokens (stripComment text) with
  | nil =>
    rw [assembleLine_of_blank ht] at h
    cases h
    exact .inl ⟨rfl, rfl⟩
  | cons name operands =>
    obtain ⟨k, hk, hcount, hemit⟩ := emitLine_of_assembleLine ht h
    obtain ⟨v, hv⟩ := entries_of_emitLine hcount hemit
    exact .inr ⟨name, operands, k, v, rfl, hk, hv⟩

/-- As many operand entries as the arity (R58, R82). -/
theorem length_operandEntries (k : Mnemonic) (n : Int) : (operandEntries k n).length = k.operandBytes := by
  cases k <;> rfl

theorem length_of_assembleLine {m : OpcodeMap} {n : Nat} {text : List Char} {entries : List Int}
    (h : assembleLine m n text = .ok entries) : entries.length = Spec.lineLength text := by
  obtain ⟨ht, rfl⟩ | ⟨name, operands, k, v, ht, hk, rfl⟩ := assembleLine_eq_ok_cases h
  · rw [Spec.lineLength, ht]
    rfl
  · simp only [Spec.lineLength, ht, hk, List.length_cons, length_operandEntries, Option.elim, Nat.add_comm]

theorem length_of_assembleLines {m : OpcodeMap} {n : Nat} {lines : List (List Char)} {img : List Int}
    (h : assembleLines m n lines = .ok img) : img.length = (lines.map Spec.lineLength).sum := by
  induction lines generalizing n img with
  | nil => cases h; rfl
  | cons line rest ih =>
    obtain ⟨entries, more, hline, hrest, rfl⟩ := assembleLines_cons_eq_ok h
    rw [List.length_append, List.map_cons, List.sum_cons, length_of_assembleLine hline, ih hrest]

/-- Settles O52, line by line. -/
theorem assembledLengthIsTheSumOfInstructionLengths : Obligations.AssembledLengthIsTheSumOfInstructionLengths :=
  fun _ _ _ => length_of_assembleLines

/-- The opcode entry is loaded as the opcode byte. -/
theorem wrap8_opcodeEntry (m : OpcodeMap) (k : Mnemonic) : wrap8 (opcodeEntry m k) = m.byte k := by
  rw [wrap8, opcodeEntry, BitVec.ofInt_natCast, BitVec.ofNat_toNat, BitVec.setWidth_eq]

/-- The operand entries are loaded as the operand bytes of an encoding. -/
theorem map_wrap8_operandEntries (k : Mnemonic) (n : Int) :
    ∃ b1 b2, (operandEntries k n).map wrap8 = [b1, b2].take k.operandBytes := by
  cases k with
  | jmp => exact ⟨wrap8 (n.fmod 256), wrap8 ((n.fdiv 256).fmod 256), rfl⟩
  | lai | lbi | lci => exact ⟨wrap8 n, 0#8, rfl⟩
  | hlt | lab | lba | adb | lam | lma => exact ⟨0#8, 0#8, rfl⟩

theorem instr_ne_unassigned (k : Mnemonic) (b1 b2 op : Byte) : k.instr b1 b2 ≠ .unassigned op := by
  cases k <;> simp [Mnemonic.instr]

/-- An accepted line that holds an instruction is loaded as the encoding of an assigned one. -/
theorem map_wrap8_of_assembleLine {m : OpcodeMap} {n : Nat} {text : List Char} {entries : List Int}
    (h : assembleLine m n text = .ok entries) :
    (tokens (stripComment text) = [] ∧ entries = []) ∨
      (tokens (stripComment text) ≠ [] ∧ ∃ i : Instr, entries.map wrap8 = encode m i ∧
        i.wf m = true ∧ ∀ op, i ≠ .unassigned op) := by
  refine (assembleLine_eq_ok_cases h).imp id ?_
  rintro ⟨name, operands, k, v, ht, -, rfl⟩
  obtain ⟨b1, b2, hoperand⟩ := map_wrap8_operandEntries k v
  refine ⟨by simp [ht], k.instr b1 b2, ?_, wf_instr m k b1 b2, instr_ne_unassigned k b1 b2⟩
  rw [List.map_cons, wrap8_opcodeEntry, hoperand, encode_instr]

/-- Accepted lines are loaded as the encodings of assigned instructions, one for each line that holds one. -/
theorem map_wrap8_of_assembleLines {m : OpcodeMap} {n : Nat} {lines : List (List Char)} {img : List Int}
    (h : assembleLines m n lines = .ok img) :
    ∃ prog : List Instr, img.map wrap8 = prog.flatMap (encode m) ∧
      (∀ i ∈ prog, i.wf m = true ∧ ∀ op, i ≠ .unassigned op) ∧
      prog.length = (lines.filter (fun line => decide (tokens (stripComment line) ≠ []))).length := by
  induction lines generalizing n img with
  | nil => cases h; exact ⟨[], rfl, by simp, rfl⟩
  | cons line rest ih =>
    obtain ⟨entries, more, hline, hrest, rfl⟩ := assembleLines_cons_eq_ok h
    obtain ⟨prog, hbytes, hprog, hlen⟩ := ih hrest
    obtain ⟨hblank, rfl⟩ | ⟨hheld, i, hi, hassigned⟩ := map_wrap8_of_assembleLine hline
    · refine ⟨prog, hbytes, hprog, ?_⟩
      rw [hlen, List.filter_cons_of_neg (by simp [hblank])]
    · refine ⟨i :: prog, ?_, List.forall_mem_cons.mpr ⟨hassigned, hprog⟩, ?_⟩
      · rw [List.map_append, hi, hbytes, List.flatMap_cons]
      · rw [List.filter_cons_of_pos (by simp [hheld]), List.length_cons, List.length_cons, hlen]

/-- Settles O51, line by line. -/
theorem assembledImageIsEncodedInstructions : Obligations.AssembledImageIsEncodedInstructions :=
  fun _ _ _ => map_wrap8_of_assembleLines

/-! ## The report (R128 to R130) -/

theorem getElem?_renderWindow (s : State) {k : Nat} (hk : k < 274) :
    (renderWindow s)[k]? = some (renderByte (s.memRead (0xEEE + k))) := by
  have hsize : k < windowSize := hk
  rw [renderWindow, List.getElem?_map, List.getElem?_range' hsize, Nat.one_mul]
  rfl

/-- PRINTABLE_MIN is 32 or 33, whichever reading it has (D11). -/
theorem printableMin_eq : Config.printableMin = 32 ∨ Config.printableMin = 33 := by
  rw [Config.printableMin]
  split
  next => exact .inl rfl
  next => exact .inr rfl

theorem renderByte_of_printable {b : Byte} (h : 33 ≤ b.toNat) (h' : b.toNat ≤ 126) : renderByte b = Char.ofNat b.toNat :=
  if_pos ⟨by have := printableMin_eq; omega, h'⟩

theorem renderByte_of_unprintable {b : Byte} (h : b.toNat < 32 ∨ 126 < b.toNat) :
    renderByte b = Config.placeholderGlyph :=
  if_neg (by have := printableMin_eq; omega)

theorem renderByte_cases (b : Byte) : renderByte b = Char.ofNat b.toNat ∨ renderByte b = Config.placeholderGlyph :=
  ite_eq_or_eq _ _ _

/-- Settles O59: the window by its addresses, its bytes by PRINTABLE_MIN's two readings, and the status by the warning. -/
theorem reportRendersTheWindowAndTheFlags : Obligations.ReportRendersTheWindowAndTheFlags := by
  refine ⟨fun s => ⟨?_, fun _ => getElem?_renderWindow s⟩,
    fun b => ⟨renderByte_of_printable, renderByte_of_unprintable, renderByte_cases b⟩, fun _ => rfl,
    fun n s => ⟨statusMessage n s, rfl, fun hw => ?_, fun hw => ?_⟩⟩
  · rw [renderWindow, List.length_map, List.length_range']
    rfl
  · simp [statusMessage, hw]
  · simp [statusMessage, hw]

end Sys2Proof.Machine
